-- ==== Sys2Proof/Word.lean ====
section
/-! DEFINITION. The word types of QRSE: the byte of its memories, the word of its bus, the offset on its bus. -/

namespace Sys2Proof

/-- A byte: the unit of the bus space and of CWM and MM (R9, R60). -/
abbrev Byte := BitVec 8

/-- A word of the host data bus, BUS_W = 32 bits (R6), and of a command (R90). -/
abbrev Word := BitVec 32

/-- A byte offset on the host bus, relative to BASE: 22 bits (R60). -/
abbrev BusAddr := BitVec 22

end Sys2Proof
end

