-- ==== Sys2Proof/Syntax.lean ====
section
/-! DEFINITION. The commands of QRSE: one constructor per row of spec/opcode_table.json. -/

namespace Sys2Proof

/-- The commands (R91). No command has an operand field (R94), so no constructor has an argument. -/
inductive Instr where
  /-- R200: no operation. -/
  | nop
  /-- R110: pack the BitField into data codewords. -/
  | pack
  /-- R140: compute the parity codewords of every block. -/
  | rsenc
  /-- R170: place codeword bits and remainder bits into the matrix. -/
  | place
  /-- R201: PACK, RSENC and PLACE in one command. -/
  | encode
  /-- R202: soft reset. -/
  | sreset
  deriving DecidableEq, Repr

end Sys2Proof
end

