-- ==== Sys2Proof/WellFormed.lean ====
section
/-! DEFINITION. Which terms are well formed: every command is, and of the words a host can write to CMD exactly those
with RSV = 0 and an assigned opcode. Written without the decoder, so that the two can be compared. -/

namespace Sys2Proof

/-- A command has no operand field (R94), so there is nothing in it to check. -/
def Instr.wellFormed : Instr → Bool
  | .nop | .pack | .rsenc | .place | .encode | .sreset => true

/-- RSV, bits 31:4, is zero (R90, R92): the word is below 16. -/
def rsvClear (w : Word) : Bool := decide (w.toNat < 16)

/-- OP, bits 3:0, is one of 0x0 .. 0x4 and 0xF (R91); 0x5 .. 0xE are reserved (R93). -/
def opAssigned (w : Word) : Bool := decide (w.toNat % 16 ≤ 4 ∨ w.toNat % 16 = 15)

/-- The words that are commands (R96): RSV = 0 and an assigned OP. -/
def commandWellFormed (w : Word) : Bool := rsvClear w && opAssigned w

end Sys2Proof
end

