-- ==== Sys2Proof/Decode.lean ====
section
/-! DEFINITION. Decoding a word written to CMD, total on every word (R96), and the encoder. -/

namespace Sys2Proof

/-- Why a word is no command. Both reasons complete as ILLEGAL_CMD (R226). -/
inductive IllegalCommand where
  /-- RSV ≠ 0 (R92). -/
  | reservedBits
  /-- RSV = 0 and OP in 0x5 .. 0xE (R93). -/
  | reservedOpcode (op : BitVec 4)
  deriving DecidableEq, Repr

/-- OP, bits 3:0 of a command word (R90). -/
def opField (w : Word) : BitVec 4 := w.extractLsb' 0 4

/-- RSV, bits 31:4 of a command word (R90). -/
def rsvField (w : Word) : BitVec 28 := w.extractLsb' 4 28

/-- The command a word stands for (R91, R92, R93, R96). -/
def decode (w : Word) : Except IllegalCommand Instr :=
  if rsvField w ≠ 0 then .error .reservedBits
  else
    match (opField w).toNat with
    | 0 => .ok .nop
    | 1 => .ok .pack
    | 2 => .ok .rsenc
    | 3 => .ok .place
    | 4 => .ok .encode
    | 15 => .ok .sreset
    | _ => .error (.reservedOpcode (opField w))

/-- The word of a command (R91, R97). -/
def encode : Instr → Word
  | .nop => 0x00000000#32
  | .pack => 0x00000001#32
  | .rsenc => 0x00000002#32
  | .place => 0x00000003#32
  | .encode => 0x00000004#32
  | .sreset => 0x0000000F#32

/-- The opcode of a command (R91). -/
def opcode (i : Instr) : BitVec 4 := opField (encode i)

/-- The word whose low `nbits` bits are those of `w` and whose other bits are zero. A command is one 32-bit word, so
bit 0 of the table's numbering is bit 0 of the word written to CMD. -/
def tableWord (nbits w : Nat) : Word := BitVec.ofNat 32 (w % 2 ^ nbits)

/-- What the decoder reads from a word numbered as spec/opcode_table.json numbers its bits. -/
def decodeTableWord (nbits w : Nat) : Option Instr :=
  match decode (tableWord nbits w) with
  | .ok i => some i
  | .error _ => none

/-! Each command's word, written out from R90 and R91 as RSV (28 bits) and then OP (4 bits). -/

theorem decode_word_nop : decode (0b0000000000000000000000000000#28 ++ 0b0000#4) = .ok .nop := rfl
theorem decode_word_pack : decode (0b0000000000000000000000000000#28 ++ 0b0001#4) = .ok .pack := rfl
theorem decode_word_rsenc : decode (0b0000000000000000000000000000#28 ++ 0b0010#4) = .ok .rsenc := rfl
theorem decode_word_place : decode (0b0000000000000000000000000000#28 ++ 0b0011#4) = .ok .place := rfl
theorem decode_word_encode : decode (0b0000000000000000000000000000#28 ++ 0b0100#4) = .ok .encode := rfl
theorem decode_word_sreset : decode (0b0000000000000000000000000000#28 ++ 0b1111#4) = .ok .sreset := rfl
theorem decode_word_reserved :
    decode (0b0000000000000000000000000000#28 ++ 0b0111#4) = .error (.reservedOpcode 7) := rfl
theorem decode_word_rsv : decode (0b0000000000000000000000000001#28 ++ 0b1111#4) = .error .reservedBits := rfl

end Sys2Proof
end

