-- ==== Sys2Proof/Config.lean ====
section
/-! DEFINITION. The implementation parameters of QRSE (R6, R40, R41) and the model's free values. -/

namespace Sys2Proof

/-- One record of the Layout Table (R40). The coordinate and mask sequences are used 1-based: position index `p`
is element `p - 1` of the list. The format-information coordinates are there because the record has them; QRSE never
reads them (R40, C3). -/
structure LayoutRecord where
  xCoords : List Nat
  yCoords : List Nat
  maskBytes : List Byte
  remainderBitCount : Nat
  formatInfoCoordsX : Vector Nat 15
  formatInfoCoordsY : Vector Nat 15
  eccCodewordsPerBlock : Nat
  blockOrder : List Nat
  deriving DecidableEq, Repr, Inhabited

/-- The parameters one implementation fixes (R6): the depths of BFM and CWM, each in 1..65535 (R38, D16), held as the
depth less one so that no other depth can be written; the Layout Table `LT`, keyed by (version, level code); the
generator table `RSG`, keyed by r. A key that is not listed is absent (R40, R41). -/
structure Params where
  nBfLessOne : Fin 65535
  nCwLessOne : Fin 65535
  layouts : List ((Nat × Nat) × LayoutRecord)
  generators : List (Nat × List (List Byte))
  deriving DecidableEq, Repr, Inhabited

/-- N_BF, the entries of BitField memory (R6). -/
def Params.nBf (p : Params) : Nat := p.nBfLessOne.val + 1

/-- N_CW, the bytes of codeword memory (R6, R38). -/
def Params.nCw (p : Params) : Nat := p.nCwLessOne.val + 1

/-- FREE VALUE (log 2, DESIGN CHOICE, safe): the parameters of the machine that comes out of reset. The spec leaves
them OPEN (D16, D23), so nothing can be proved of them. A state that a statement or a test speaks of carries its own
parameters in `State.config`. -/
opaque Config.params : Params

/-- FREE VALUE (log 3, DESIGN CHOICE, safe): the byte the `n`-th draw gives, where the spec says "any value": host
reads of memory while BUSY (I1) or of an unwritten byte (I2), and memory after an aborted command (I3). -/
opaque Config.freeByte : Nat → Byte

end Sys2Proof
end

