-- ==== Sys2Proof/Machine/State.lean ====
section
/-! DEFINITION. The state of QRSE as plain data (10_state.md), what the host and the engine can do next, the ways a
step can stop, and the state after reset. -/

namespace Sys2Proof.Machine

/-- A data memory (R37, R38, R39): (byte index, byte) pairs, the indexes strictly rising. A byte is listed exactly
when its `init` bit is true (R44): an unlisted byte has NO value (log 4, safe), so no listed byte can equal what an
unlisted one reads as. -/
abbrev Memory := List Host.Cell

/-- The canonical form: the indexes rise strictly. -/
abbrev Memory.wf (m : Memory) : Prop := m.Pairwise fun a b => a.1 < b.1

/-- Every listed byte lies inside a memory of `n` bytes. -/
abbrev Memory.below (n : Nat) (m : Memory) : Prop := ∀ c ∈ m, c.1 < n

/-- The three data memories by name (R20). -/
inductive DataMemory where
  | bfm
  | cwm
  | mm
  deriving DecidableEq, Repr

/-- STATUS.ECODE (R221). The reserved codes 8 to 15 are never produced and cannot be written here (I6). -/
inductive ErrorCode where
  | none
  | emptyData
  | versionRange
  | capacityOverflow
  | malformedTable
  | illegalCmd
  | badBitfield
  | badCapacity
  deriving DecidableEq, Repr

/-- The commands the engine executes (R22). -/
inductive EngineOp where
  | pack
  | rsenc
  | place
  | encode
  deriving DecidableEq, Repr

/-- ENG (R22). -/
inductive EngineState where
  | idle
  | pending (op : EngineOp)
  deriving DecidableEq, Repr

/-- The host-written registers, by field: CTRL (R23), CFG (R26), MAXDATABITS (R27), BFCOUNT (R28). Every other bit
of them is RAZ/WI. -/
structure Control where
  ie : Bool
  version : BitVec 6
  level : BitVec 2
  maxDataBits : BitVec 16
  bfCount : BitVec 16
  deriving DecidableEq, Repr

/-- STATUS by field (R25). BUSY has no storage: it is 1 exactly when ENG = PENDING. -/
structure Status where
  done : Bool
  err : Bool
  werr : Bool
  ecode : ErrorCode
  lastOp : BitVec 4
  deriving DecidableEq, Repr

/-- The result registers (R29 to R34), each as wide as its field. -/
structure Results where
  totalBits : BitVec 32
  termBits : BitVec 3
  dCount : BitVec 16
  cwCount : BitVec 16
  nBlocks : BitVec 16
  eccR : BitVec 16
  deriving DecidableEq, Repr

/-- The access sizes of the bus, 1, 2 and 4 bytes (R67). -/
inductive Width where
  | w8
  | w16
  | w32
  deriving DecidableEq, Repr

/-- One host access (R80). A write of fewer than four bytes moves the low bytes of `data` (R65). -/
inductive Access where
  | read (addr : BusAddr) (width : Width)
  | write (addr : BusAddr) (width : Width) (data : Word)
  deriving DecidableEq, Repr

/-- One thing that can happen next (R13, R72, R80): the engine's turn, a host access, or the reset input (R260). -/
inductive Event where
  | engine
  | access (a : Access)
  | hardReset
  deriving DecidableEq, Repr

/-- The port's answer to the last host access (R68, R78, R80). The bytes of a read stand in the low bits of `data`
(R65) and the bits above them are zero (log 6). -/
inductive Response where
  /-- No access since reset. -/
  | none
  /-- The normal response to a write, a dropped one included (R78). -/
  | written
  | data (value : Word)
  /-- The error response to a write (R68). -/
  | writeError
  /-- The error response to a read, with the data it returns (R68). -/
  | readError (value : Word)
  deriving DecidableEq, Repr

/-- The state. The first nine fields are the spec's (R20); the last four are the model's own. -/
structure State where
  ctl : Control
  status : Status
  results : Results
  /-- BFM: entry `i` is bytes `4*i` to `4*i + 3`, the bus word's least significant byte first (R37, log 7). -/
  bfm : Memory
  /-- CWM (R38). -/
  cwm : Memory
  /-- MM (R39): cell (x, y) is byte `x * SIDE + y`. -/
  mm : Memory
  eng : EngineState
  /-- The output IRQ (R46), recomputed by every step. -/
  irq : Bool
  /-- The parameters of this machine, which no step changes (R6, R76, log 2). -/
  config : Params
  /-- What happens next, first first: the interleaving of host and engine (R72, log 1). -/
  inputs : List Event
  response : Response
  /-- How many free bytes have been used (log 3). -/
  draws : Nat
  deriving DecidableEq, Repr

/-- Why a step stops with a fault. -/
inductive Fault where
  /-- UNINIT_READ (R241), raised by PACK, RSENC, PLACE and ENCODE at the first byte they read that nothing has
  written. SAFE: the hardware computes with whatever the RAM holds, so no claim is provable there. -/
  | uninitRead (memory : DataMemory) (index : Nat)
  deriving DecidableEq, Repr

/-- Why a step has no meaning. -/
inductive Refusal where
  /-- The command has no meaning in the model yet. Nothing raises it: every row of the table has its meaning. SAFE. -/
  | notModelled (mnemonic : String)
  deriving DecidableEq, Repr

/-- The host-written registers after reset (R47). -/
def Control.reset : Control :=
  { ie := false, version := 0, level := 0, maxDataBits := 0, bfCount := 0 }

/-- STATUS after reset (R47). -/
def Status.reset : Status :=
  { done := false, err := false, werr := false, ecode := .none, lastOp := 0 }

/-- The result registers after reset (R47). -/
def Results.reset : Results :=
  { totalBits := 0, termBits := 0, dCount := 0, cwCount := 0, nBlocks := 0, eccR := 0 }

/-- The machine right after hard reset (R47, R260, R263): every register 0, ENG idle, IRQ 0, no byte written. The
model's own fields: the parameters are the opaque `Config.params` (log 2), no event waits (log 1), no access has been
answered (log 6), no free byte has been used (log 3). -/
def State.reset : State :=
  { ctl := Control.reset, status := Status.reset, results := Results.reset
    bfm := [], cwm := [], mm := [], eng := .idle, irq := false
    config := Config.params, inputs := [], response := .none, draws := 0 }

end Sys2Proof.Machine
end

