-- ==== Sys2Proof/Machine/Flags.lean ====
section
/-! DEFINITION. STATUS and the interrupt: every rule of R25, R45 and R46 about a status bit, as a function. -/

namespace Sys2Proof.Machine

/-- The number of an error code (R221). -/
def ErrorCode.code : ErrorCode → BitVec 4
  | .none => 0
  | .emptyData => 1
  | .versionRange => 2
  | .capacityOverflow => 3
  | .malformedTable => 4
  | .illegalCmd => 5
  | .badBitfield => 6
  | .badCapacity => 7

/-- BUSY is 1 exactly when ENG = PENDING(op) (R25). -/
def EngineState.busy : EngineState → Bool
  | .idle => false
  | .pending _ => true

/-- STATUS.BUSY (R25). -/
def State.busy (s : State) : Bool := s.eng.busy

/-- Acceptance of a command word with opcode `op` (R204): LASTOP is recorded and DONE, ERR and ECODE are cleared; WERR
is not touched. -/
def Status.accepted (st : Status) (op : BitVec 4) : Status :=
  { st with done := false, err := false, ecode := .none, lastOp := op }

/-- Completion without error (R205). -/
def Status.succeeded (st : Status) : Status :=
  { st with done := true, err := false, ecode := .none }

/-- Completion with error `c` (R205, R231). -/
def Status.failed (st : Status) (c : ErrorCode) : Status :=
  { st with done := true, err := true, ecode := c }

/-- A host write was dropped because BUSY = 1 (R78, R234). -/
def Status.dropped (st : Status) : Status := { st with werr := true }

/-- A write of `w` to STATUS (R25, R232): a 1 in bit 1, 2 or 3 clears DONE, ERR or WERR, and clearing ERR clears ECODE
too. Every other bit is ignored (R69). -/
def Status.writeOneClear (st : Status) (w : Word) : Status :=
  { st with
    done := st.done && !w.getLsbD 1
    err := st.err && !w.getLsbD 2
    werr := st.werr && !w.getLsbD 3
    ecode := if w.getLsbD 2 then .none else st.ecode }

/-- The word STATUS reads as (R25). -/
def State.statusWord (s : State) : Word :=
  0#12 ++ s.status.lastOp ++ 0#4 ++ s.status.ecode.code ++ 0#4 ++ BitVec.ofBool s.status.werr ++
    BitVec.ofBool s.status.err ++ BitVec.ofBool s.status.done ++ BitVec.ofBool s.busy

/-- The level IRQ should have: `CTRL.IE & STATUS.DONE` (R46, R236). -/
def State.irqLevel (s : State) : Bool := s.ctl.ie && s.status.done

/-- IRQ is recomputed after every step (R46). -/
def State.settleIrq (s : State) : State := { s with irq := s.irqLevel }

end Sys2Proof.Machine
end

