-- ==== Sys2Proof/Machine/Ops.lean ====
section
/-! DEFINITION. The named operations over memory and registers: reading and writing bytes, accepting a command,
reporting an error (the block's form of taking an exception, R231) and clearing the report (R232), completing a
command, the two resets. -/

namespace Sys2Proof.Machine

/-! Memory. -/

/-- The byte at index `k`, none when nothing has written it (R44). -/
def Memory.read : Memory → Nat → Option Byte
  | [], _ => none
  | (a, b) :: m, k => if a = k then some b else Memory.read m k

/-- Write one byte, keeping the indexes rising. Its `init` bit is true from now on (R44). -/
def Memory.write : Memory → Nat → Byte → Memory
  | [], k, v => [(k, v)]
  | (a, b) :: m, k, v =>
    if k < a then (k, v) :: (a, b) :: m
    else if k = a then (k, v) :: m
    else (a, b) :: Memory.write m k v

/-- Write the bytes in order at `k`, `k + 1`, .... -/
def Memory.writeBytes : Memory → Nat → List Byte → Memory
  | m, _, [] => m
  | m, k, b :: bs => Memory.writeBytes (Memory.write m k b) (k + 1) bs

/-- Write (index, byte) pairs in order: where two name one index, the later wins (R11). -/
def Memory.writeCells (m : Memory) (cells : List Host.Cell) : Memory :=
  cells.foldl (fun m c => Memory.write m c.1 c.2) m

/-- A memory whose bytes `k` to `k + n - 1` are `f k`, ..., all of them written, and no other. -/
def Memory.fill : (k n : Nat) → (f : Nat → Byte) → Memory
  | _, 0, _ => []
  | k, n + 1, f => (k, f k) :: Memory.fill (k + 1) n f

/-! What stops a running command (R10, R205). -/

/-- A running command stops with an error code, or meets the model fault (R205). -/
inductive Stop where
  | raise (code : ErrorCode)
  | modelFault (f : Fault)
  deriving DecidableEq, Repr

/-- `fail_if(cond, code)` (R10). -/
def failIf (cond : Bool) (code : ErrorCode) : Except Stop Unit :=
  if cond then .error (.raise code) else .ok ()

/-- A command reads byte `k` of a memory: UNINIT_READ when nothing has written it (R79, R241). -/
def readByte (which : DataMemory) (m : Memory) (k : Nat) : Except Stop Byte :=
  match Memory.read m k with
  | some b => .ok b
  | none => .error (.modelFault (.uninitRead which k))

/-- A command reads the `n` bytes from index `k` on, in rising order. -/
def readBytes (which : DataMemory) (m : Memory) : (k n : Nat) → Except Stop (List Byte)
  | _, 0 => .ok []
  | k, n + 1 => do
    let b ← readByte which m k
    let bs ← readBytes which m (k + 1) n
    return b :: bs

/-! Commands: acceptance, completion, errors. -/

/-- Acceptance of a command word with opcode `op` while BUSY = 0 (R204). -/
def State.accept (s : State) (op : BitVec 4) : State :=
  { s with status := s.status.accepted op }.settleIrq

/-- An accepted engine command waits for the engine: ENG ← PENDING(op) (R204, R22). -/
def State.start (s : State) (op : EngineOp) : State := { s with eng := .pending op }

/-- Completion without error: DONE ← 1, ERR ← 0, ECODE ← 0, ENG ← IDLE (R205). -/
def State.completeOk (s : State) : State :=
  { s with status := s.status.succeeded, eng := .idle }.settleIrq

/-- Error entry: ERR ← 1, ECODE ← code, DONE ← 1, ENG ← IDLE, and nothing else but IRQ (R231). -/
def State.errorEntry (s : State) (c : ErrorCode) : State :=
  { s with status := s.status.failed c, eng := .idle }.settleIrq

/-- Error return: the W1C write to STATUS that clears the report (R232, R25). -/
def State.errorReturn (s : State) (w : Word) : State :=
  { s with status := s.status.writeOneClear w }.settleIrq

/-- A host write dropped because BUSY = 1: it sets WERR and changes nothing else (R78, R234). -/
def State.dropWrite (s : State) : State :=
  { s with status := s.status.dropped }.settleIrq

/-- A word that is no command, written while BUSY = 0: ILLEGAL_CMD, complete at once (R204, R226). -/
def State.illegalCommand (s : State) (op : BitVec 4) : State :=
  (s.accept op).errorEntry .illegalCmd

/-- Completion of the engine step that started in `s` and computed `r` (R205): its writes on success, no write on an
error (R230), the model fault otherwise. -/
def completeCommand (s : State) (r : Except Stop State) : Host.Outcome State Fault Refusal :=
  match r with
  | .ok s' => .next s'.completeOk
  | .error (.raise c) => .next (s.errorEntry c)
  | .error (.modelFault f) => .fault f

/-- Apply `f` to the next state, if there is one. -/
def onNext (f : State → State) :
    Host.Outcome State Fault Refusal → Host.Outcome State Fault Refusal
  | .next s => .next (f s)
  | .fault e => .fault e
  | .refused e => .refused e

/-! Resets. -/

/-- MM_BYTES = 177 * 177 (R6). -/
def mmBytes : Nat := 31329

/-- `n` bytes of any value, the draws from number `d` on (I3, log 3). -/
def anyBytes (d n : Nat) : Memory := Memory.fill 0 n fun k => Config.freeByte (d + k)

/-- The bytes an abort leaves as any value (R202): every byte of CWM when the pending command writes CWM, every byte
of MM when it writes MM. They count as written. -/
def State.abortPending (s : State) : State :=
  match s.eng with
  | .idle => s
  | .pending .pack | .pending .rsenc =>
    { s with cwm := anyBytes s.draws s.config.nCw, draws := s.draws + s.config.nCw }
  | .pending .place =>
    { s with mm := anyBytes s.draws mmBytes, draws := s.draws + mmBytes }
  | .pending .encode =>
    { s with
      cwm := anyBytes s.draws s.config.nCw
      mm := anyBytes (s.draws + s.config.nCw) mmBytes
      draws := s.draws + s.config.nCw + mmBytes }

/-- Every register to its reset value and ENG ← IDLE (R47); the memories are not touched. -/
def State.resetRegisters (s : State) : State :=
  { s with
    ctl := Control.reset, status := Status.reset, results := Results.reset
    eng := .idle }.settleIrq

/-- Soft reset (R202): abort the pending command, if there is one, and reset every register. -/
def State.softReset (s : State) : State := s.abortPending.resetRegisters

/-- Hard reset (R260, R262): registers as above, every `init` bit cleared. The model's own fields: the parameters, the
waiting events and the draw counter stay, and no response stands (log 10). -/
def State.hardReset (s : State) : State :=
  { s with bfm := [], cwm := [], mm := [], response := .none }.resetRegisters

end Sys2Proof.Machine
end

