-- ==== Sys2Proof/Machine/Operands.lean ====
section
/-! DEFINITION. The operands of the commands (R94) and the checks on them: fields of the control registers, BitField
entries, layout records and generator rows. Also the byte order of the bus (R65). -/

namespace Sys2Proof.Machine

/-! Words and bytes. -/

/-- The word whose bytes, least significant first, are `bs` (R65). -/
def littleEndian (bs : List Byte) : Word :=
  bs.foldr (fun b acc => (acc <<< 8) ||| b.setWidth 32) 0

/-- The `n` low bytes of a word, least significant first (R65). -/
def bytesOfWord (n : Nat) (w : Word) : List Byte :=
  (List.range n).map fun i => w.extractLsb' (8 * i) 8

/-! Control registers. -/

/-- The side of the matrix of version `v` (R6, R43, R171). -/
def sideOf (v : Nat) : Nat := 17 + 4 * v

/-- CFG.VERSION (R26). -/
def State.version (s : State) : Nat := s.ctl.version.toNat

/-- CFG.LEVEL (R26, R42). -/
def State.level (s : State) : Nat := s.ctl.level.toNat

/-- MAXDATABITS.M (R27). -/
def State.capacity (s : State) : Nat := s.ctl.maxDataBits.toNat

/-- D = M >> 3, the number of data codewords (R110, R141). -/
def State.dataCount (s : State) : Nat := s.capacity >>> 3

/-- BFCOUNT.C (R28). -/
def State.entryCount (s : State) : Nat := s.ctl.bfCount.toNat

/-- 1 <= CFG.VERSION <= 40 (R43, R223). -/
def State.versionOk (s : State) : Bool := decide (1 ≤ s.version ∧ s.version ≤ 40)

/-- M is usable: not 0, a multiple of 8, and D <= N_CW (R27, R228). -/
def State.capacityOk (s : State) : Bool :=
  decide (s.capacity ≠ 0 ∧ s.capacity % 8 = 0 ∧ s.dataCount ≤ s.config.nCw)

/-! BitField entries. -/

/-- A pair (VALUE, WIDTH) of BitField memory (R37). -/
structure Entry where
  value : BitVec 24
  width : BitVec 5
  deriving DecidableEq, Repr

/-- The entry a bus word stands for: VALUE in bits 23:0, WIDTH in bits 28:24, bits 31:29 ignored (R95). -/
def entryOfWord (w : Word) : Entry :=
  { value := w.extractLsb' 0 24, width := w.extractLsb' 24 5 }

/-- The bus word of an entry: bits 31:29 read as 0 (R95). -/
def wordOfEntry (e : Entry) : Word := 0#3 ++ e.width ++ e.value

/-- The entry is legal: WIDTH <= WMAX = 24 and VALUE < 2^WIDTH (R110, R227). -/
def Entry.legal (e : Entry) : Bool :=
  decide (e.width.toNat ≤ 24 ∧ e.value.toNat < 2 ^ e.width.toNat)

/-- A command reads entry `i` of BFM (R37); UNINIT_READ when it was never written (R241). -/
def readEntry (bfm : Memory) (i : Nat) : Except Stop Entry := do
  let bs ← readBytes .bfm bfm (4 * i) 4
  return entryOfWord (littleEndian bs)

/-- The loop of R110 and R201 over the `n` entries from `i` on: read one, check it, go on (log 9). -/
def checkedEntriesFrom (bfm : Memory) : (i n : Nat) → Except Stop (List Entry)
  | _, 0 => .ok []
  | i, n + 1 => do
    let e ← readEntry bfm i
    failIf (!e.legal) .badBitfield
    let es ← checkedEntriesFrom bfm (i + 1) n
    return e :: es

/-- The BitField, when BFCOUNT and every entry are legal; BAD_BITFIELD otherwise (R110, R227). -/
def State.checkedEntries (s : State) : Except Stop (List Entry) := do
  failIf (decide (s.entryCount > s.config.nBf)) .badBitfield
  checkedEntriesFrom s.bfm 0 s.entryCount

/-- T, the sum of the widths (R111). -/
def totalDataBits (es : List Entry) : Nat := (es.map fun e => e.width.toNat).sum

/-! Tables. -/

/-- The value listed under a key, none when the key is absent. -/
def lookupKey {κ α : Type} [DecidableEq κ] : List (κ × α) → κ → Option α
  | [], _ => none
  | (k, a) :: rest, key => if k = key then some a else lookupKey rest key

/-- LT(v, l) (R40). -/
def layoutOf (p : Params) (v l : Nat) : Option LayoutRecord := lookupKey p.layouts (v, l)

/-- RSG(r) (R41). -/
def generatorOf (p : Params) (r : Nat) : Option (List (List Byte)) := lookupKey p.generators r

/-- N, the codewords of the symbol, sum(B) (R12, R174). -/
def totalCodewords (rec : LayoutRecord) : Nat := rec.blockOrder.sum

/-- P = 8*N + R, the number of position indexes (R172). -/
def positionCount (rec : LayoutRecord) : Nat := 8 * totalCodewords rec + rec.remainderBitCount

/-- xCoords(p), 1-based (R40). -/
def xCoord (rec : LayoutRecord) (p : Nat) : Nat := rec.xCoords.getD (p - 1) 0

/-- yCoords(p), 1-based (R40). -/
def yCoord (rec : LayoutRecord) (p : Nat) : Nat := rec.yCoords.getD (p - 1) 0

/-- maskBytes(p), 1-based (R40). -/
def maskByte (rec : LayoutRecord) (p : Nat) : Byte := rec.maskBytes.getD (p - 1) 0

/-- The data codewords of a record's blocks, sum of (B[i] - r) (R142, R143). -/
def totalDataCodewords (rec : LayoutRecord) : Nat :=
  (rec.blockOrder.map fun b => b - rec.eccCodewordsPerBlock).sum

/-- The conditions of rsTablesOk on a record that is present (R142). -/
def rsLayoutOk (p : Params) (rec : LayoutRecord) (d : Nat) : Bool :=
  decide (1 ≤ rec.eccCodewordsPerBlock) && decide (1 ≤ rec.blockOrder.length) &&
    rec.blockOrder.all (fun b => decide (rec.eccCodewordsPerBlock < b)) &&
    decide (totalDataCodewords rec = d) && decide (totalCodewords rec ≤ p.nCw)

/-- The shape of a generator table for r: 256 rows of r bytes (R142, R41). -/
def generatorOk (rows : List (List Byte)) (r : Nat) : Bool :=
  decide (rows.length = 256) && rows.all fun row => decide (row.length = r)

/-- rsTablesOk(v, l, D): the record and the rows when they are consistent, none otherwise (R142). -/
def rsTables (p : Params) (v l d : Nat) : Option (LayoutRecord × List (List Byte)) :=
  match layoutOf p v l with
  | none => none
  | some rec =>
    match generatorOf p rec.eccCodewordsPerBlock with
    | none => none
    | some rows =>
      if rsLayoutOk p rec d && generatorOk rows rec.eccCodewordsPerBlock then some (rec, rows)
      else none

/-- The conditions of placeTablesOk on a record that is present (R172), `side` = S. -/
def placeLayoutOk (p : Params) (rec : LayoutRecord) (side : Nat) : Bool :=
  decide (1 ≤ rec.blockOrder.length) && decide (1 ≤ totalCodewords rec) &&
    decide (totalCodewords rec ≤ p.nCw) &&
    decide (positionCount rec ≤ rec.xCoords.length) && decide (positionCount rec ≤ rec.yCoords.length) &&
    decide (positionCount rec ≤ rec.maskBytes.length) &&
    (rec.xCoords.take (positionCount rec)).all (fun x => decide (x < side)) &&
    (rec.yCoords.take (positionCount rec)).all (fun y => decide (y < side))

/-- placeTablesOk(v, l): the record when it is consistent, none otherwise (R172). -/
def placeTables (p : Params) (v l : Nat) : Option LayoutRecord :=
  match layoutOf p v l with
  | none => none
  | some rec => if placeLayoutOk p rec (sideOf v) then some rec else none

/-- The value, or the error MALFORMED_TABLE (R225). -/
def orMalformed {α : Type} : Option α → Except Stop α
  | some a => .ok a
  | none => .error (.raise .malformedTable)

end Sys2Proof.Machine
end

