-- ==== Sys2Proof/Machine/Pack.lean ====
section
/-! DEFINITION. PACK (40_pack.md): terminator, big-endian bit packing, pad codewords. -/

namespace Sys2Proof.Machine

/-- The width of the terminator for T <= M (R112; the case T > M is CAPACITY_OVERFLOW, decided before). `M - 4` is on
integers (R7). -/
def terminatorWidth (t m : Nat) : Nat :=
  if (t : Int) ≤ (m : Int) - 4 then 4
  else if t < m then m - t
  else 0

/-- The `w` low bits of `v`, the most significant first (R113). -/
def bitsMsbFirst : (w v : Nat) → List Bool
  | 0, _ => []
  | w + 1, v => v.testBit w :: bitsMsbFirst w v

/-- The bits of one entry (R113). -/
def Entry.bits (e : Entry) : List Bool := bitsMsbFirst e.width.toNat e.value.toNat

/-- The bit stream of the entries, in entry order (R113). -/
def bitStream (es : List Entry) : List Bool := es.flatMap Entry.bits

/-- `n` zero bits (R113). -/
def zeroBits (n : Nat) : List Bool := List.replicate n false

/-- The byte whose bit `7 - b` is bit `b` of the list, 0 past its end (R114). -/
def byteOfBits (bits : List Bool) : Byte :=
  BitVec.ofNat 8 (((List.range 8).map fun b => (bits.getD b false).toNat <<< (7 - b)).sum)

/-- The first `k` bytes of a bit stream: byte `q` holds bits `8*q` to `8*q + 7` (R114). -/
def codewordsFrom : (k : Nat) → List Bool → List Byte
  | 0, _ => []
  | k + 1, bits => byteOfBits (bits.take 8) :: codewordsFrom k (bits.drop 8)

/-- A bit stream cut into ceil(L / 8) bytes, the last filled with zero bits (R114). -/
def toCodewords (bits : List Bool) : List Byte := codewordsFrom ((bits.length + 7) / 8) bits

/-- The pad codeword number `q` (R115). -/
def padByte (q : Nat) : Byte := if q % 2 = 0 then 0xEC else 0x11

/-- `m` pad codewords (R115). -/
def padCodewords (m : Nat) : List Byte := (List.range m).map padByte

/-- The codewords of the packed stream, terminator included, without the pads (R110). -/
def packedStream (es : List Entry) (m : Nat) : List Byte :=
  toCodewords (bitStream es ++ zeroBits (terminatorWidth (totalDataBits es) m))

/-- The D data codewords: the packed stream and then pads (R110). -/
def dataCodewords (es : List Entry) (m : Nat) : List Byte :=
  packedStream es m ++ padCodewords ((m >>> 3) - (packedStream es m).length)

/-- The writes of PACK (R110 from its first write on, R116). -/
def packWrites (s : State) (es : List Entry) : State :=
  { s with
    cwm := Memory.writeBytes s.cwm 0 (dataCodewords es s.capacity)
    results := { s.results with
      totalBits := BitVec.ofNat 32 (totalDataBits es)
      termBits := BitVec.ofNat 3 (terminatorWidth (totalDataBits es) s.capacity)
      dCount := BitVec.ofNat 16 s.dataCount
      cwCount := BitVec.ofNat 16 s.dataCount } }

/-- PACK() (R110): the checks in their order, then the writes. -/
def packResult (s : State) : Except Stop State := do
  let es ← s.checkedEntries
  failIf (decide (totalDataBits es = 0)) .emptyData
  failIf (!s.capacityOk) .badCapacity
  failIf (decide (totalDataBits es > s.capacity)) .capacityOverflow
  return packWrites s es

/-- The engine step of PACK (R110, R205). -/
def execPack (s : State) : Host.Outcome State Fault Refusal := completeCommand s (packResult s)

end Sys2Proof.Machine
end

