-- ==== Sys2Proof/Machine/Place.lean ====
section
/-! DEFINITION. PLACE (42_place.md): codeword bits and remainder bits into the module matrix. -/

namespace Sys2Proof.Machine

/-- The array byte of the module of position index `p` in a matrix of side `side` (R39, R64). -/
def cellIndex (rec : LayoutRecord) (side p : Nat) : Nat := xCoord rec p * side + yCoord rec p

/-- The value written for bit `bit` at position index `p` (R176). -/
def cellValue (rec : LayoutRecord) (bit : Bool) (p : Nat) : Byte :=
  (if bit then 0xFF else 0x00) ^^^ maskByte rec p

/-- The writes of codeword `i`, for j = `j` down to 1; `c` is the codeword shifted right once per step taken (R170,
R174, R175). -/
def codewordCells (rec : LayoutRecord) (side i : Nat) : (j : Nat) → (c : Byte) → List Host.Cell
  | 0, _ => []
  | j + 1, c =>
    (cellIndex rec side ((i <<< 3) + (j + 1)), cellValue rec (c.getLsbD 0) ((i <<< 3) + (j + 1))) ::
      codewordCells rec side i j (c >>> 1)

/-- The writes of the codewords from number `i` on (R174). -/
def codewordsCells (rec : LayoutRecord) (side : Nat) : (i : Nat) → List Byte → List Host.Cell
  | _, [] => []
  | i, c :: cs => codewordCells rec side i 8 c ++ codewordsCells rec side (i + 1) cs

/-- The writes of the remainder bits, k = 1 .. R (R177). -/
def remainderCells (rec : LayoutRecord) (side : Nat) : List Host.Cell :=
  (List.range rec.remainderBitCount).map fun k =>
    (cellIndex rec side ((totalCodewords rec <<< 3) + (k + 1)),
      cellValue rec true ((totalCodewords rec <<< 3) + (k + 1)))

/-- The whole MM array at 0 (R173). -/
def clearedMatrix : Memory := Memory.fill 0 mmBytes fun _ => 0

/-- The matrix after the clear, the codeword writes and the remainder writes, in this order (R178). -/
def builtMatrix (rec : LayoutRecord) (side : Nat) (codewords : List Byte) : Memory :=
  Memory.writeCells clearedMatrix (codewordsCells rec side 0 codewords ++ remainderCells rec side)

/-- The writes of PLACE, its record being consistent (R170 after its checks). -/
def placeWrites (s : State) (rec : LayoutRecord) : Except Stop State := do
  let codewords ← readBytes .cwm s.cwm 0 (totalCodewords rec)
  return { s with
    mm := builtMatrix rec (sideOf s.version) codewords
    results := { s.results with cwCount := BitVec.ofNat 16 (totalCodewords rec) } }

/-- PLACE() (R170): the checks in their order, then the writes. -/
def placeResult (s : State) : Except Stop State := do
  failIf (!s.versionOk) .versionRange
  let rec ← orMalformed (placeTables s.config s.version s.level)
  placeWrites s rec

/-- The engine step of PLACE (R170, R205). -/
def execPlace (s : State) : Host.Outcome State Fault Refusal := completeCommand s (placeResult s)

end Sys2Proof.Machine
end

