-- ==== Sys2Proof/Machine/Rsenc.lean ====
section
/-! DEFINITION. RSENC (41_rsenc.md): Reed-Solomon parity by table-driven polynomial division. -/

namespace Sys2Proof.Machine

/-- XOR a row into the first bytes of `u`; the bytes past the row stay (R145). -/
def xorRow : (u row : List Byte) → List Byte
  | [], _ => []
  | u, [] => u
  | a :: u, g :: row => (a ^^^ g) :: xorRow u row

/-- One division step (R145, R146): shift out the leading byte `c`; if it is nonzero, XOR row `c` of the table into
the first r bytes that remain. -/
def divStep (t : List Byte) (r : Nat) (rows : List (List Byte)) : List Byte :=
  match t with
  | [] => []
  | c :: u => if c = 0 then u else xorRow u ((rows.getD c.toNat []).take r)

/-- `n` division steps (R144). -/
def divSteps : (n : Nat) → (t : List Byte) → (r : Nat) → (rows : List (List Byte)) → List Byte
  | 0, t, _, _ => t
  | n + 1, t, r, rows => divSteps n (divStep t r rows) r rows

/-- The ECC codewords of one block: the remainder after one step per data byte (R144). -/
def rsRemainder (data : List Byte) (r : Nat) (rows : List (List Byte)) : List Byte :=
  divSteps data.length (data ++ List.replicate r 0) r rows

/-- The ECC codewords of the blocks from `off` on, one block's after another's (R143, R147). -/
def blocksEcc (cwm : Memory) (r : Nat) (rows : List (List Byte)) :
    (off : Nat) → (blocks : List Nat) → Except Stop (List Byte)
  | _, [] => .ok []
  | off, b :: blocks => do
    let data ← readBytes .cwm cwm off (b - r)
    let rest ← blocksEcc cwm r rows (off + (b - r)) blocks
    return rsRemainder data r rows ++ rest

/-- The writes of RSENC, its tables being consistent (R140 after its checks, R147, R148). -/
def rsencWrites (s : State) (rec : LayoutRecord) (rows : List (List Byte)) : Except Stop State := do
  let ecc ← blocksEcc s.cwm rec.eccCodewordsPerBlock rows 0 rec.blockOrder
  return { s with
    cwm := Memory.writeBytes s.cwm s.dataCount ecc
    results := { s.results with
      dCount := BitVec.ofNat 16 s.dataCount
      cwCount := BitVec.ofNat 16
        (s.dataCount + rec.blockOrder.length * rec.eccCodewordsPerBlock)
      nBlocks := BitVec.ofNat 16 rec.blockOrder.length
      eccR := BitVec.ofNat 16 rec.eccCodewordsPerBlock } }

/-- RSENC() (R140): the checks in their order, then the writes. -/
def rsencResult (s : State) : Except Stop State := do
  failIf (!s.versionOk) .versionRange
  failIf (!s.capacityOk) .badCapacity
  let tables ← orMalformed (rsTables s.config s.version s.level s.dataCount)
  rsencWrites s tables.1 tables.2

/-- The engine step of RSENC (R140, R205). -/
def execRsenc (s : State) : Host.Outcome State Fault Refusal := completeCommand s (rsencResult s)

end Sys2Proof.Machine
end

