-- ==== Sys2Proof/Machine/Control.lean ====
section
/-! DEFINITION. NOP, ENCODE and SRESET (43_control.md). -/

namespace Sys2Proof.Machine

/-- NOP, in the host's write step (R200, R204): accepted and complete at once; dropped while BUSY = 1. -/
def execNop (s : State) : Host.Outcome State Fault Refusal :=
  if s.busy then .next s.dropWrite
  else .next (s.accept (opcode .nop)).completeOk

/-- The tables of ENCODE: those of RSENC and those of PLACE, both consistent (R201). The two records are one, since
both are LT(v, l). -/
def encodeTables (s : State) : Option (LayoutRecord × List (List Byte)) :=
  match rsTables s.config s.version s.level s.dataCount, placeTables s.config s.version s.level with
  | some tables, some _ => some tables
  | _, _ => none

/-- ENCODE() (R201): every check first, in the order of R229; then the writes of PACK, of RSENC computed from the
state they leave, and of PLACE computed from the state those leave. -/
def encodeResult (s : State) : Except Stop State := do
  let es ← s.checkedEntries
  failIf (decide (totalDataBits es = 0)) .emptyData
  failIf (!s.versionOk) .versionRange
  failIf (!s.capacityOk) .badCapacity
  failIf (decide (totalDataBits es > s.capacity)) .capacityOverflow
  let tables ← orMalformed (encodeTables s)
  let s2 ← rsencWrites (packWrites s es) tables.1 tables.2
  placeWrites s2 tables.1

/-- The engine step of ENCODE (R201, R205). -/
def execEncode (s : State) : Host.Outcome State Fault Refusal := completeCommand s (encodeResult s)

/-- SRESET, in the host's write step, BUSY or not (R202, R204). -/
def execSreset (s : State) : Host.Outcome State Fault Refusal := .next s.softReset

end Sys2Proof.Machine
end

