-- ==== Sys2Proof/Machine/Dispatch.lean ====
section
/-! DEFINITION. One arm per command. -/

namespace Sys2Proof.Machine

def exec (i : Instr) (s : State) : Host.Outcome State Fault Refusal :=
  match i with
  | .nop => Sys2Proof.Machine.execNop s
  | .pack => Sys2Proof.Machine.execPack s
  | .rsenc => Sys2Proof.Machine.execRsenc s
  | .place => Sys2Proof.Machine.execPlace s
  | .encode => Sys2Proof.Machine.execEncode s
  | .sreset => Sys2Proof.Machine.execSreset s

end Sys2Proof.Machine
end

