-- ==== Sys2Proof/Machine/Bus.lean ====
section
/-! DEFINITION. The host's steps: the bus map and its checks (20_memory.md), register and memory accesses, the CMD
write (R204), and one turn of the machine. -/

namespace Sys2Proof.Machine

/-! The address map (R61). -/

/-- The registers by name (10_state.md section 2). -/
inductive Register where
  | id
  | ctrl
  | cmd
  | status
  | cfg
  | maxDataBits
  | bfCount
  | totalBits
  | termBits
  | dCount
  | cwCount
  | nBlocks
  | eccR
  | side
  deriving DecidableEq, Repr

/-- The register at an offset of the register page (R23 to R36); none where the page is RAZ/WI (R61). -/
def registerAt (off : Nat) : Option Register :=
  match off with
  | 0x000 => some .id
  | 0x004 => some .ctrl
  | 0x008 => some .cmd
  | 0x00C => some .status
  | 0x010 => some .cfg
  | 0x014 => some .maxDataBits
  | 0x018 => some .bfCount
  | 0x01C => some .totalBits
  | 0x020 => some .termBits
  | 0x024 => some .dCount
  | 0x028 => some .cwCount
  | 0x02C => some .nBlocks
  | 0x030 => some .eccR
  | 0x034 => some .side
  | _ => none

/-- The bytes an access moves (R67). -/
def Width.bytes : Width → Nat
  | .w8 => 1
  | .w16 => 2
  | .w32 => 4

/-- What a legal access reaches. -/
inductive Target where
  /-- A word of the register page; none where no register stands (RAZ/WI). -/
  | register (r : Option Register)
  /-- Entry `i` of BFM (R62). -/
  | entry (i : Nat)
  /-- The bytes of CWM from index `k` on (R63). -/
  | cwm (k : Nat)
  /-- The bytes of MM from index `k` on (R64). -/
  | mm (k : Nat)
  deriving DecidableEq, Repr

/-- What an access reaches, none for a bus error: an unmapped offset, a misaligned one, bytes not all in one range, or
a width the range does not take (R61, R67, R68). -/
def target (p : Params) (addr : BusAddr) (width : Width) : Option Target :=
  let a := addr.toNat
  let n := width.bytes
  if a % n ≠ 0 then none
  else if a < 0x1000 then
    if width = .w32 then some (.register (registerAt a)) else none
  else if 0x100000 ≤ a ∧ a + n ≤ 0x100000 + 4 * p.nBf then
    if width = .w32 then some (.entry ((a - 0x100000) / 4)) else none
  else if 0x200000 ≤ a ∧ a + n ≤ 0x200000 + p.nCw then some (.cwm (a - 0x200000))
  else if 0x300000 ≤ a ∧ a + n ≤ 0x300000 + mmBytes then some (.mm (a - 0x300000))
  else none

/-! Reads. -/

/-- ID_VALUE, the bytes "QRSE" (R36). -/
def idValue : Word := 0x51525345

/-- The value of SIDE (R35): it follows CFG.VERSION at once. -/
def State.sideValue (s : State) : Nat := if s.versionOk then sideOf s.version else 0

/-- The word a register reads as, reserved bits 0 (R23 to R36, R69). -/
def State.readRegister (s : State) : Register → Word
  | .id => idValue
  | .ctrl => 0#31 ++ BitVec.ofBool s.ctl.ie
  | .cmd => 0
  | .status => s.statusWord
  | .cfg => 0#22 ++ s.ctl.level ++ 0#2 ++ s.ctl.version
  | .maxDataBits => 0#16 ++ s.ctl.maxDataBits
  | .bfCount => 0#16 ++ s.ctl.bfCount
  | .totalBits => s.results.totalBits
  | .termBits => 0#29 ++ s.results.termBits
  | .dCount => 0#16 ++ s.results.dCount
  | .cwCount => 0#16 ++ s.results.cwCount
  | .nBlocks => 0#16 ++ s.results.nBlocks
  | .eccR => 0#16 ++ s.results.eccR
  | .side => BitVec.ofNat 32 s.sideValue

/-- Byte number `i` of a host read of memory (R79, R269): any value while BUSY = 1 or where nothing has written it,
the byte held otherwise. -/
def State.hostByte (s : State) (m : Memory) (k i : Nat) : Byte :=
  if s.busy then Config.freeByte (s.draws + i)
  else (Memory.read m (k + i)).getD (Config.freeByte (s.draws + i))

/-- The `n` bytes a host read of memory returns from index `k` on. -/
def State.hostBytes (s : State) (m : Memory) (k n : Nat) : List Byte :=
  (List.range n).map (s.hostByte m k)

/-- The bits of a BFM word that are read as 0 (R95); while BUSY = 1 the whole word is any value (I1, log 8). -/
def State.entryWord (s : State) (i : Nat) : Word :=
  let w := littleEndian (s.hostBytes s.bfm (4 * i) 4)
  if s.busy then w else wordOfEntry (entryOfWord w)

/-- The port answers, and IRQ is recomputed (R46). -/
def State.respond (s : State) (r : Response) : State := { s with response := r }.settleIrq

/-- `n` free bytes are used up (log 3). -/
def State.draw (s : State) (n : Nat) : State := { s with draws := s.draws + n }

/-- A host read of `n` bytes of memory `m` from index `k` on. -/
def State.readMemory (s : State) (m : Memory) (k n : Nat) : State :=
  (s.respond (.data (littleEndian (s.hostBytes m k n)))).draw n

/-- A legal host read (R62 to R65, R69, R71). -/
def State.hostRead (s : State) (t : Target) (n : Nat) : State :=
  match t with
  | .register none => s.respond (.data 0)
  | .register (some r) => s.respond (.data (s.readRegister r))
  | .entry i => (s.respond (.data (s.entryWord i))).draw n
  | .cwm k => s.readMemory s.cwm k n
  | .mm k => s.readMemory s.mm k n

/-! Writes. -/

/-- A write to a register other than CMD while BUSY = 0: RW and W1C fields only (R69). -/
def State.writeRegister (s : State) (r : Register) (w : Word) : State :=
  match r with
  | .ctrl => { s with ctl := { s.ctl with ie := w.getLsbD 0 } }.settleIrq
  | .status => s.errorReturn w
  | .cfg =>
    { s with ctl := { s.ctl with version := (w.extractLsb' 0 6), level := (w.extractLsb' 8 2) } }.settleIrq
  | .maxDataBits => { s with ctl := { s.ctl with maxDataBits := w.extractLsb' 0 16 } }.settleIrq
  | .bfCount => { s with ctl := { s.ctl with bfCount := w.extractLsb' 0 16 } }.settleIrq
  | .id | .cmd | .totalBits | .termBits | .dCount | .cwCount | .nBlocks | .eccR | .side => s.settleIrq

/-- Store an entry as the four bytes of its bus word, bits 31:29 zero (R62, R95, log 7). -/
def writeEntry (bfm : Memory) (i : Nat) (e : Entry) : Memory :=
  Memory.writeBytes bfm (4 * i) (bytesOfWord 4 (wordOfEntry e))

/-- A legal host write other than to CMD, while BUSY = 0 (R62 to R65, R69, R71). -/
def State.writeTarget (s : State) (t : Target) (n : Nat) (w : Word) : State :=
  match t with
  | .register none => s.settleIrq
  | .register (some r) => s.writeRegister r w
  | .entry i =>
    { s with bfm := writeEntry s.bfm i (entryOfWord w) }.settleIrq
  | .cwm k => { s with cwm := Memory.writeBytes s.cwm k (bytesOfWord n w) }.settleIrq
  | .mm k => { s with mm := Memory.writeBytes s.mm k (bytesOfWord n w) }.settleIrq

/-! Commands. -/

/-- The command an engine operation is. -/
def EngineOp.instr : EngineOp → Instr
  | .pack => .pack
  | .rsenc => .rsenc
  | .place => .place
  | .encode => .encode

/-- The engine operation of a command; none for the two that take effect in the host's write step (R22). -/
def engineOp : Instr → Option EngineOp
  | .nop => none
  | .pack => some .pack
  | .rsenc => some .rsenc
  | .place => some .place
  | .encode => some .encode
  | .sreset => none

/-- onCmdWrite(w) (R204). -/
def cmdWrite (w : Word) (s : State) : Host.Outcome State Fault Refusal :=
  if s.busy then
    if w = 0x0000000F#32 then exec .sreset s else .next s.dropWrite
  else
    match decode w with
    | .ok i =>
      match engineOp i with
      | some op => .next ((s.accept (opField w)).start op)
      | none => exec i s
    | .error _ => .next (s.illegalCommand (opField w))

/-! One turn. -/

/-- A host access (R67 to R71, R77, R78, R80). Whether the access is legal is decided before BUSY is looked at
(log 5). -/
def hostAccess (a : Access) (s : State) : Host.Outcome State Fault Refusal :=
  match a with
  | .read addr width =>
    match target s.config addr width with
    | none => .next (s.respond (.readError 0))
    | some t => .next (s.hostRead t width.bytes)
  | .write addr width w =>
    match target s.config addr width with
    | none => .next (s.respond .writeError)
    | some (.register (some .cmd)) => onNext (fun s => s.respond .written) (cmdWrite w s)
    | some t =>
      if s.busy then .next (s.dropWrite.respond .written)
      else .next ((s.writeTarget t width.bytes w).respond .written)

/-- The engine's turn (R70, R205): the pending command is executed; with ENG = IDLE nothing is enabled and nothing
changes. -/
def engineTurn (s : State) : Host.Outcome State Fault Refusal :=
  match s.eng with
  | .idle => .next s.settleIrq
  | .pending op => exec op.instr s

/-- One turn of the machine: the first waiting event; with none waiting, the engine's turn (R70, R72, log 1). -/
def nextTurn (s : State) : Host.Outcome State Fault Refusal :=
  match s.inputs with
  | [] => engineTurn s
  | .engine :: rest => engineTurn { s with inputs := rest }
  | .access a :: rest => hostAccess a { s with inputs := rest }
  | .hardReset :: rest => .next { s with inputs := rest }.hardReset

/-- The machine made ready to run the command word `w` in its very next step (log 11). An engine command has been
accepted and the engine moves next; for any other word the write to CMD itself comes next, with ENG = IDLE. -/
def State.stageWord (s : State) (w : Word) : State :=
  let write : State :=
    { s with eng := .idle, inputs := .access (.write 0x000008 .w32 w) :: s.inputs }
  match decode w with
  | .error _ => write
  | .ok i =>
    match engineOp i with
    | none => write
    | some op => { (s.accept (opField w)).start op with inputs := .engine :: s.inputs }

end Sys2Proof.Machine
end

