-- ==== Sys2Proof/Machine/Step.lean ====
section
/-! DEFINITION. One step of the machine, and where a command word is placed for the next step to run it. -/

namespace Sys2Proof.Machine

/-- One step: one turn of the host or of the engine (R13, R72). -/
def step (s : State) : Host.Outcome State Fault Refusal := nextTurn s

/-- The state in which the next step runs the command whose word is `w` (log 11). -/
def State.withFetchWord (s : State) (nbits w : Nat) : State := s.stageWord (tableWord nbits w)

end Sys2Proof.Machine
end

