-- ==== Sys2Proof/Safety.lean ====
section
/-! DEFINITION. What claims speak of: the invariant of the machine, the end of a run, the conditions under which each
command completes, and the shape of a state after an error. -/

namespace Sys2Proof.Machine

/-! The invariant. -/

/-- Bits 31:29 of every stored BFM word are 0 (R95). -/
abbrev bfmReservedClear (m : Memory) : Prop := ∀ c ∈ m, c.1 % 4 = 3 → c.2.toNat < 32

/-- While a command is pending, STATUS is as its acceptance left it: no report stands, and LASTOP names it (R204). -/
def State.pendingOk (s : State) : Prop :=
  ∀ op, s.eng = .pending op →
    s.status.done = false ∧ s.status.err = false ∧ s.status.lastOp = opcode op.instr

/-- The invariant: memories in canonical form inside their windows (R37 to R39), reserved bits clear (R95), ECODE 0
exactly when ERR = 0 (R25), IRQ at its level (R46), a pending command without a report (R204), result registers within
the bounds their rules give (R29 to R34). -/
structure Invariant (s : State) : Prop where
  bfm_wf : s.bfm.wf
  bfm_below : s.bfm.below (4 * s.config.nBf)
  bfm_reserved : bfmReservedClear s.bfm
  cwm_wf : s.cwm.wf
  cwm_below : s.cwm.below s.config.nCw
  mm_wf : s.mm.wf
  mm_below : s.mm.below mmBytes
  ecode_iff : s.status.err = false ↔ s.status.ecode = .none
  irq_level : s.irq = s.irqLevel
  pending : s.pendingOk
  totalBits_le : s.results.totalBits.toNat ≤ 65535
  termBits_le : s.results.termBits.toNat ≤ 4
  dCount_le : s.results.dCount.toNat ≤ s.config.nCw
  cwCount_le : s.results.cwCount.toNat ≤ s.config.nCw
  nBlocks_le : s.results.nBlocks.toNat ≤ s.config.nCw
  eccR_le : s.results.eccR.toNat ≤ s.config.nCw

/-- The end of a run (R273): the host has no next access and ENG = IDLE. DESIGN CHOICE (log 18, unsafe): no event of
any kind may wait. R273 (a) speaks only of the host's accesses; here an idle state in which a reset input or engine
turns still wait is not final. -/
def State.final (s : State) : Prop := s.inputs = [] ∧ s.eng = .idle

/-! One event. -/

/-- The step that performs event `e` next: afterwards the events of `s` wait as before. -/
def perform (e : Event) (s : State) : Host.Outcome State Fault Refusal :=
  step { s with inputs := e :: s.inputs }

/-- The event of writing word `w` to CMD (R24, R204). -/
def cmdWriteEvent (w : Word) : Event := .access (.write 0x000008 .w32 w)

/-! Legal accesses. -/

/-- The access is one the bus map takes (R61, R67): `n` bytes at an offset that is a multiple of `n`, all inside one
range, and in the register page and the BFM window four bytes only. -/
def LegalAccess (p : Params) (addr : BusAddr) (width : Width) : Prop :=
  addr.toNat % width.bytes = 0 ∧
    ((addr.toNat + width.bytes ≤ 0x1000 ∧ width = .w32) ∨
     (0x100000 ≤ addr.toNat ∧ addr.toNat + width.bytes ≤ 0x100000 + 4 * p.nBf ∧ width = .w32) ∨
     (0x200000 ≤ addr.toNat ∧ addr.toNat + width.bytes ≤ 0x200000 + p.nCw) ∨
     (0x300000 ≤ addr.toNat ∧ addr.toNat + width.bytes ≤ 0x300000 + mmBytes))

/-! Where the commands complete. -/

/-- BFM[0 .. C) holds the written entries `es` (R37). -/
structure HoldsEntries (s : State) (es : List Entry) : Prop where
  count : es.length = s.entryCount
  depth : s.entryCount ≤ s.config.nBf
  written : ∀ i (h : i < es.length), readEntry s.bfm i = .ok es[i]

/-- CWM[0 .. n) holds the written bytes `bs` (R38). -/
structure HoldsCodewords (s : State) (bs : List Byte) (n : Nat) : Prop where
  count : bs.length = n
  written : ∀ k (h : k < bs.length), Memory.read s.cwm k = some bs[k]

/-- Every entry satisfies the invariant of the BitField (R95, R227). -/
def AllLegal (es : List Entry) : Prop :=
  ∀ e ∈ es, e.width.toNat ≤ 24 ∧ e.value.toNat < 2 ^ e.width.toNat

/-- Every check of PACK passes (R110). -/
structure PackReady (s : State) (es : List Entry) : Prop where
  entries : HoldsEntries s es
  legal : AllLegal es
  nonempty : 0 < totalDataBits es
  capacity_pos : 0 < s.capacity
  capacity_bytes : s.capacity % 8 = 0
  capacity_fits : s.dataCount ≤ s.config.nCw
  fits : totalDataBits es ≤ s.capacity

/-- rsTablesOk(v, l, D) spelled out, `rec` being LT(v, l) and `rows` being RSG(r) (R142). -/
structure RsTablesConsistent (s : State) (rec : LayoutRecord) (rows : List (List Byte)) : Prop where
  layout : layoutOf s.config s.version s.level = some rec
  ecc_pos : 1 ≤ rec.eccCodewordsPerBlock
  blocks_pos : 1 ≤ rec.blockOrder.length
  block_data : ∀ b ∈ rec.blockOrder, rec.eccCodewordsPerBlock < b
  covers : totalDataCodewords rec = s.dataCount
  fits : totalCodewords rec ≤ s.config.nCw
  generator : generatorOf s.config rec.eccCodewordsPerBlock = some rows
  row_count : rows.length = 256
  row_length : ∀ row ∈ rows, row.length = rec.eccCodewordsPerBlock

/-- placeTablesOk(v, l) spelled out, `rec` being LT(v, l) (R172). -/
structure PlaceTablesConsistent (s : State) (rec : LayoutRecord) : Prop where
  layout : layoutOf s.config s.version s.level = some rec
  blocks_pos : 1 ≤ rec.blockOrder.length
  codewords_pos : 1 ≤ totalCodewords rec
  fits : totalCodewords rec ≤ s.config.nCw
  x_length : positionCount rec ≤ rec.xCoords.length
  y_length : positionCount rec ≤ rec.yCoords.length
  mask_length : positionCount rec ≤ rec.maskBytes.length
  inside : ∀ p, 1 ≤ p → p ≤ positionCount rec →
    xCoord rec p < sideOf s.version ∧ yCoord rec p < sideOf s.version

/-- Every check of RSENC passes and CWM[0 .. D) holds `data` (R140). -/
structure RsencReady (s : State) (rec : LayoutRecord) (rows : List (List Byte)) (data : List Byte) :
    Prop where
  version_low : 1 ≤ s.version
  version_high : s.version ≤ 40
  capacity_pos : 0 < s.capacity
  capacity_bytes : s.capacity % 8 = 0
  capacity_fits : s.dataCount ≤ s.config.nCw
  tables : RsTablesConsistent s rec rows
  codewords : HoldsCodewords s data s.dataCount

/-- Every check of PLACE passes and CWM[0 .. N) holds `codewords` (R170). -/
structure PlaceReady (s : State) (rec : LayoutRecord) (codewords : List Byte) : Prop where
  version_low : 1 ≤ s.version
  version_high : s.version ≤ 40
  tables : PlaceTablesConsistent s rec
  codewords : HoldsCodewords s codewords (totalCodewords rec)

/-- Every check of ENCODE passes (R201). -/
structure EncodeReady (s : State) (es : List Entry) (rec : LayoutRecord) (rows : List (List Byte)) :
    Prop where
  pack : PackReady s es
  version_low : 1 ≤ s.version
  version_high : s.version ≤ 40
  rs : RsTablesConsistent s rec rows
  place : PlaceTablesConsistent s rec

/-! What the commands compute, in closed form. -/

/-- The data codewords of block `i` (R143). -/
def blockData (r : Nat) (blocks : List Nat) (data : List Byte) (i : Nat) : List Byte :=
  (data.drop ((blocks.take i).map fun b => b - r).sum).take (blocks.getD i 0 - r)

/-- The number of the write that serves position index `p`: the codeword walk visits the positions of one codeword in
falling order, the remainder bits come after it (R178). -/
def placeRank (n p : Nat) : Nat := if p ≤ 8 * n then 8 * ((p - 1) / 8) + (7 - (p - 1) % 8) else p - 1

/-- The bit placed at position index `p`: bit `7 - ((p - 1) & 7)` of codeword `(p - 1) >> 3` up to 8*N, a one beyond
(R175, R177). -/
def placedBit (cs : List Byte) (p : Nat) : Bool :=
  if p ≤ 8 * cs.length then (cs.getD ((p - 1) / 8) 0).getLsbD (7 - (p - 1) % 8) else true

/-! States after completion. -/

/-- `s` after a command that ended with error `c`: STATUS reports it, ENG is idle, IRQ follows, and nothing else
changed (R230, R231). -/
def errorReported (s : State) (c : ErrorCode) : State :=
  { s with
    status := { done := true, err := true, werr := s.status.werr, ecode := c, lastOp := s.status.lastOp }
    eng := .idle
    irq := s.ctl.ie }

/-- STATUS of `s` after a command that ended without error (R205). -/
def successStatus (s : State) : Status :=
  { done := true, err := false, werr := s.status.werr, ecode := .none, lastOp := s.status.lastOp }

end Sys2Proof.Machine
end

