-- ==== Sys2Proof/Certificates/Slice0/Obligations.lean ====
section
/-! DEFINITION. The statements for the provers. -/

open Sys2Proof Sys2Proof.Machine

/-! ## Encoding -/

/-- R90, R91: the words of the opcode map, written out, and two words that are none of them (R92, R93). -/
def Obligations.OpcodeMapWords : Prop :=
  decode 0x00000000#32 = .ok .nop ∧ decode 0x00000001#32 = .ok .pack ∧ decode 0x00000002#32 = .ok .rsenc ∧
  decode 0x00000003#32 = .ok .place ∧ decode 0x00000004#32 = .ok .encode ∧
  decode 0x0000000F#32 = .ok .sreset ∧ decode 0x00000007#32 = .error (.reservedOpcode 7) ∧
  decode 0x00000010#32 = .error .reservedBits

/-- R90 to R93, R96: every command decodes from its word; a word that decodes is the word of what it decodes to; and
the words that decode are exactly those with RSV = 0 and an assigned OP, every other one being refused by name. -/
def Obligations.DecodeEncodeAgree : Prop :=
  (∀ i : Instr, i.wellFormed = true → decode (encode i) = .ok i) ∧
  (∀ (w : Word) (i : Instr), decode w = .ok i → encode i = w) ∧
  (∀ w : Word, (∃ i, decode w = .ok i) ↔ commandWellFormed w = true) ∧
  (∀ w : Word, rsvClear w = false → decode w = .error .reservedBits) ∧
  (∀ w : Word, rsvClear w = true → opAssigned w = false → decode w = .error (.reservedOpcode (opField w)))

/-! ## Steps -/

/-- R22, R70, R204, R205: a step that writes to CMD the word of a command of the host's step runs that command and
answers; one that writes the word of an engine command while BUSY = 0 accepts it and makes it pending; the engine's
turn runs the pending command. (That an empty list of events is the engine's turn is the model's choice, log 1; that
`withFetchWord` places a command so that the very next step runs it is the model's too, log 11.) -/
def Obligations.StepRunsDecodedCommand : Prop :=
  (∀ (s : State) (rest : List Event) (w : Word) (i : Instr),
    s.inputs = cmdWriteEvent w :: rest → decode w = .ok i → i.wellFormed = true →
      (engineOp i = none → (s.busy = false ∨ i = .sreset) →
        step s = onNext (fun t => t.respond .written) (exec i { s with inputs := rest })) ∧
      (∀ op, engineOp i = some op → s.busy = false →
        step s =
          .next (((State.accept { s with inputs := rest } (opcode i)).start op).respond .written))) ∧
  (∀ (s : State) (rest : List Event) (op : EngineOp), s.eng = .pending op →
    s.inputs = .engine :: rest → step s = exec op.instr { s with inputs := rest }) ∧
  (∀ (s : State) (op : EngineOp), s.eng = .pending op → s.inputs = [] → step s = exec op.instr s) ∧
  (∀ (s : State) (i : Instr) (op : EngineOp), engineOp i = some op →
    step (s.withFetchWord 32 (encode i).toNat) = exec i ((s.accept (opcode i)).start op)) ∧
  (∀ (s : State) (i : Instr), engineOp i = none →
    step (s.withFetchWord 32 (encode i).toNat) =
      onNext (fun t => t.respond .written) (exec i { s with eng := .idle }))

/-- R204, whole: what a host write of word `w` to CMD does, BUSY or not. -/
def Obligations.CmdWriteRule : Prop :=
  ∀ (s : State) (w : Word),
    (s.busy = true → w = 0x0000000F#32 →
      ∃ t, exec .sreset s = .next t ∧ perform (cmdWriteEvent w) s = .next { t with response := .written }) ∧
    (s.busy = true → w ≠ 0x0000000F#32 →
      perform (cmdWriteEvent w) s = .next { s with
        status := { s.status with werr := true }, response := .written, irq := s.ctl.ie && s.status.done }) ∧
    (s.busy = false → decode w = .ok .nop →
      perform (cmdWriteEvent w) s = .next { s with
        status := { done := true, err := false, werr := s.status.werr, ecode := .none, lastOp := w.extractLsb' 0 4 }
        response := .written, irq := s.ctl.ie }) ∧
    (s.busy = false → decode w = .ok .sreset →
      ∃ t, exec .sreset s = .next t ∧ perform (cmdWriteEvent w) s = .next { t with response := .written }) ∧
    (s.busy = false → commandWellFormed w = false →
      perform (cmdWriteEvent w) s = .next { s with
        status := { done := true, err := true, werr := s.status.werr, ecode := .illegalCmd,
                    lastOp := w.extractLsb' 0 4 }
        response := .written, irq := s.ctl.ie }) ∧
    (∀ op : EngineOp, s.busy = false → decode w = .ok op.instr →
      perform (cmdWriteEvent w) s = .next { s with
        status := { done := false, err := false, werr := s.status.werr, ecode := .none,
                    lastOp := w.extractLsb' 0 4 }
        eng := .pending op, response := .written, irq := false })

/-- R226: a word with RSV ≠ 0 or a reserved OP, written while BUSY = 0, completes in the host's step as ILLEGAL_CMD:
STATUS then reads DONE = 1, ERR = 1, ECODE = 5, BUSY = 0, and nothing but STATUS, the response and IRQ changed. -/
def Obligations.IllegalCommandCompletes : Prop :=
  ∀ (s : State) (w : Word), s.eng = .idle → (16 ≤ w.toNat ∨ (5 ≤ w.toNat % 16 ∧ w.toNat % 16 ≤ 14)) →
    ∃ t, perform (cmdWriteEvent w) s = .next t ∧
      t = { s with status := t.status, response := .written, irq := s.ctl.ie } ∧
      t.statusWord.getLsbD 0 = false ∧ t.statusWord.getLsbD 1 = true ∧ t.statusWord.getLsbD 2 = true ∧
      t.statusWord.extractLsb' 8 4 = 5 ∧ t.statusWord.extractLsb' 16 4 = w.extractLsb' 0 4 ∧
      t.status.werr = s.status.werr

/-- R78: a host write while BUSY = 1 to a register or to any memory window, other than the word 0x0000_000F to CMD,
is dropped: WERR is set, the response is the normal one, nothing else changes. (That RAZ/WI offsets count as well, and
that a bus error does not, is the model's reading, log 12 and log 5.) -/
def Obligations.WriteWhileBusyDropped : Prop :=
  ∀ (s : State) (addr : BusAddr) (width : Width) (w : Word),
    s.busy = true → LegalAccess s.config addr width → ¬ (addr = 0x000008 ∧ w = 0x0000000F#32) →
      perform (.access (.write addr width w)) s = .next { s with
        status := { s.status with werr := true }, response := .written, irq := s.ctl.ie && s.status.done }

/-- R75: which command runs is fixed at acceptance. While a command is pending, no host access but the word
0x0000_000F to CMD changes ENG, a memory, a control or result register, or the parameters. -/
def Obligations.PendingCommandIsFixed : Prop :=
  ∀ (s t : State) (op : EngineOp) (a : Access),
    s.eng = .pending op → a ≠ .write 0x000008 .w32 0x0000000F#32 →
      perform (.access a) s = .next t →
        t.eng = .pending op ∧ t.ctl = s.ctl ∧ t.results = s.results ∧ t.bfm = s.bfm ∧ t.cwm = s.cwm ∧
          t.mm = s.mm ∧ t.config = s.config ∧ t.status.lastOp = s.status.lastOp ∧
          t.status.done = s.status.done ∧ t.status.err = s.status.err ∧ t.status.ecode = s.status.ecode

/-- R70, R72: no command stays pending. Once every waiting event has happened and the engine has had one more turn, no
command is pending if the run answers a next state: it was executed, or a waiting SRESET or reset input aborted it. The
run never refuses; it may fault (R241). (That an empty list of events means the engine's turn is the model's form of
weak fairness, log 1.) -/
def Obligations.NoCommandStaysPending : Prop :=
  ∀ s : State,
    (∀ t, Sys2Proof.core.run (s.inputs.length + 1) s = .next t → t.eng = .idle ∧ t.inputs = []) ∧
    (∀ r, Sys2Proof.core.run (s.inputs.length + 1) s ≠ .refused r)

/-- R70, R273: the engine step is enabled exactly when a command is pending. In a final state a step changes nothing
but IRQ's level, and with IRQ at its level nothing at all; the state stays final. (That there is a step at all is
the model's choice, log 1; so is that no event of any kind waits in a final state, log 18.) -/
def Obligations.FinalStateIsStable : Prop :=
  ∀ s : State, s.final →
    step s = .next { s with irq := s.ctl.ie && s.status.done } ∧ (Invariant s → step s = .next s)

/-! ## NOP -/

/-- R200. With BUSY = 0: DONE ← 1, ERR ← 0, ECODE ← 0, LASTOP ← 0, IRQ = IE, ENG stays IDLE and nothing else
changes. With BUSY = 1 it is dropped and sets WERR. A word with OP = 0 and RSV ≠ 0 is no NOP. (That `exec` of NOP is
the host's write step of R204, the drop included, is the model's choice, log 11; CmdWriteRule states the write itself.) -/
def Obligations.NopCompletes : Prop :=
  (∀ s : State, s.eng = .idle →
    exec .nop s = .next { s with
      status := { done := true, err := false, werr := s.status.werr, ecode := .none, lastOp := 0 }
      irq := s.ctl.ie }) ∧
  (∀ s : State, s.busy = true →
    exec .nop s = .next { s with
      status := { s.status with werr := true }, irq := s.ctl.ie && s.status.done }) ∧
  (encode .nop = 0x00000000#32) ∧
  (∀ w : Word, w.toNat % 16 = 0 → w ≠ 0 → decode w = .error .reservedBits)

/-! ## PACK -/

/-- R112: the width of the terminator in each case, that it is that many zero bits after the last BitField bit, and
that T > M ends PACK with CAPACITY_OVERFLOW. -/
def Obligations.TerminatorWidthRule : Prop :=
  (∀ t m : Nat, (t : Int) ≤ (m : Int) - 4 → terminatorWidth t m = 4) ∧
  (∀ t m : Nat, (m : Int) - 4 < (t : Int) → t < m → terminatorWidth t m = m - t) ∧
  (∀ t m : Nat, t = m → terminatorWidth t m = 0) ∧
  (∀ (es : List Entry) (m : Nat), packedStream es m =
    toCodewords (bitStream es ++ List.replicate (terminatorWidth (totalDataBits es) m) false)) ∧
  (∀ (s : State) (es : List Entry), HoldsEntries s es → AllLegal es → 0 < s.capacity → s.capacity % 8 = 0 →
    s.dataCount ≤ s.config.nCw → s.capacity < totalDataBits es →
      exec .pack s = .next (errorReported s .capacityOverflow))

/-- R113: the stream is the entries' bits in entry order, each VALUE most significant bit first; its length is T.
zerobits(n) is n zero bits. -/
def Obligations.BitStreamIsMsbFirst : Prop :=
  (∀ n : Nat, zeroBits n = List.replicate n false) ∧
  (∀ es : List Entry, (bitStream es).length = totalDataBits es) ∧
  (∀ (before after : List Entry) (e : Entry) (j : Nat), j < e.width.toNat →
    (bitStream (before ++ e :: after))[totalDataBits before + j]? =
      some (e.value.getLsbD (e.width.toNat - 1 - j)))

/-- R114: the stream is cut into ceil(L / 8) bytes, first bit to the most significant bit, and the residual bits of
the last are filled with zeros at the low end. -/
def Obligations.CodewordsAreBigEndian : Prop :=
  ∀ bits : List Bool,
    (toCodewords bits).length = (bits.length + 7) / 8 ∧
    ∀ (q b : Nat) (c : Byte), (toCodewords bits)[q]? = some c → b < 8 →
      c.getLsbD (7 - b) = if h : 8 * q + b < bits.length then bits[8 * q + b] else false

/-- R115: the pads alternate 0xEC, 0x11, starting with 0xEC, and fill the codewords up to D. -/
def Obligations.PadCodewordsAlternate : Prop :=
  (∀ m q : Nat, q < m → (padCodewords m)[q]? = some (if q % 2 = 0 then 0xEC#8 else 0x11#8)) ∧
  (∀ m : Nat, (padCodewords m).length = m) ∧
  (∀ (es : List Entry) (m : Nat), m % 8 = 0 → totalDataBits es ≤ m →
    (dataCodewords es m).length = m >>> 3)

/-- R110: PACK completes when it is ready. Each codeword below ceil((T + tw) / 8) holds its eight bits of the stream,
zero past T; each later one up to D is a pad. STATUS reports success and ENG is idle. -/
def Obligations.PackWritesCodewords : Prop :=
  ∀ (s : State) (es : List Entry), PackReady s es →
    ∃ t, exec .pack s = .next t ∧ t.status = successStatus s ∧ t.eng = .idle ∧ t.irq = s.ctl.ie ∧
      ∀ q, q < s.dataCount → ∃ c, Memory.read t.cwm q = some c ∧
        (q < (totalDataBits es + terminatorWidth (totalDataBits es) s.capacity + 7) / 8 →
          ∀ b, b < 8 → c.getLsbD (7 - b) = (bitStream es).getD (8 * q + b) false) ∧
        ((totalDataBits es + terminatorWidth (totalDataBits es) s.capacity + 7) / 8 ≤ q →
          c = if (q - (totalDataBits es + terminatorWidth (totalDataBits es) s.capacity + 7) / 8) % 2 = 0
            then 0xEC else 0x11)

/-- R116: the result registers after a successful and after a failed PACK. -/
def Obligations.PackResultRegisters : Prop :=
  (∀ (s : State) (es : List Entry), PackReady s es →
    ∃ t, exec .pack s = .next t ∧ t.results.totalBits.toNat = totalDataBits es ∧
      t.results.termBits.toNat = terminatorWidth (totalDataBits es) s.capacity ∧
      t.results.dCount.toNat = s.capacity >>> 3 ∧ t.results.cwCount.toNat = s.capacity >>> 3) ∧
  (∀ s t : State, exec .pack s = .next t → t.status.err = true → t.results = s.results) ∧
  (∀ t m : Nat, terminatorWidth t m ≤ 4) ∧ (∀ s : State, s.dataCount ≤ 8191)

/-- R110, R230: what PACK leaves unchanged whenever it completes, with success or with an error: every register but
STATUS, TOTALBITS, TERMBITS, DCOUNT and CWCOUNT, BFM, MM, and every byte of CWM from index D on. -/
def Obligations.PackFrame : Prop :=
  ∀ s t : State, exec .pack s = .next t →
    t.ctl = s.ctl ∧ t.bfm = s.bfm ∧ t.mm = s.mm ∧ t.config = s.config ∧ t.inputs = s.inputs ∧
      t.response = s.response ∧ t.draws = s.draws ∧ t.results.nBlocks = s.results.nBlocks ∧
      t.results.eccR = s.results.eccR ∧ t.status.werr = s.status.werr ∧ t.status.lastOp = s.status.lastOp ∧
      t.eng = .idle ∧ ∀ a, s.capacity >>> 3 ≤ a → Memory.read t.cwm a = Memory.read s.cwm a

/-- R110, R222, R224, R227, R228, R229: the errors of PACK in their order, the entries being written. -/
def Obligations.PackChecksInOrder : Prop :=
  (∀ s : State, s.config.nBf < s.entryCount → exec .pack s = .next (errorReported s .badBitfield)) ∧
  (∀ (s : State) (es : List Entry), HoldsEntries s es →
    (¬ AllLegal es → exec .pack s = .next (errorReported s .badBitfield)) ∧
    (AllLegal es → totalDataBits es = 0 → exec .pack s = .next (errorReported s .emptyData)) ∧
    (AllLegal es → 0 < totalDataBits es →
      (s.capacity = 0 ∨ s.capacity % 8 ≠ 0 ∨ s.config.nCw < s.capacity >>> 3) →
        exec .pack s = .next (errorReported s .badCapacity)) ∧
    (AllLegal es → 0 < s.capacity → s.capacity % 8 = 0 → s.capacity >>> 3 ≤ s.config.nCw →
      s.capacity < totalDataBits es → exec .pack s = .next (errorReported s .capacityOverflow)))

/-- R241 for PACK and ENCODE: an entry below C that was never written, all before it being legal, stops the command
with UNINIT_READ of BFM at its first unwritten byte. (That the loop reads and checks entry by entry is the model's
reading, log 9; entries as bytes, log 7.) -/
def Obligations.UnwrittenEntryFaults : Prop :=
  ∀ (s : State) (i : Instr) (es : List Entry) (k : Nat), (i = .pack ∨ i = .encode) →
    s.entryCount ≤ s.config.nBf → es.length < s.entryCount →
    (∀ j (h : j < es.length), readEntry s.bfm j = .ok es[j]) → AllLegal es →
    4 * es.length ≤ k → k < 4 * es.length + 4 → Memory.read s.bfm k = none →
    (∀ j, 4 * es.length ≤ j → j < k → Memory.read s.bfm j ≠ none) →
      exec i s = .fault (.uninitRead .bfm k)

/-- R110, R223: PACK does not read CFG, the tables or MM. Two states that differ only there give the same result. -/
def Obligations.PackIgnoresConfiguration : Prop :=
  ∀ (s : State) (version : BitVec 6) (level : BitVec 2) (layouts : List ((Nat × Nat) × LayoutRecord))
    (generators : List (Nat × List (List Byte))) (mm : Memory),
    let change : State → State := fun t =>
      { t with
        ctl := { t.ctl with version := version, level := level }
        config := { t.config with layouts := layouts, generators := generators }
        mm := mm }
    exec .pack (change s) = onNext change (exec .pack s)

/-! ## RSENC -/

/-- R145: one division step shifts out the leading byte and, if it is nonzero, XORs its generator row into the first r
bytes that remain, and into no other. -/
def Obligations.DivisionStepRule : Prop :=
  ∀ (c : Byte) (u row : List Byte) (r : Nat) (rows : List (List Byte)),
    rows[c.toNat]? = some row → row.length = r → r ≤ u.length →
      (divStep (c :: u) r rows).length = u.length ∧
      ∀ k (hk : k < u.length), (divStep (c :: u) r rows)[k]? =
        some (if c ≠ 0 ∧ k < r then u[k] ^^^ row.getD k 0 else u[k])

/-- R146: a zero leading byte shifts without XOR, and row 0 of the table is never read: two tables that agree on every
other row give the same step and the same ECC. -/
def Obligations.ZeroLeadingByteOnlyShifts : Prop :=
  (∀ (u : List Byte) (r : Nat) (rows : List (List Byte)), divStep (0 :: u) r rows = u) ∧
  (∀ (rows rows' : List (List Byte)) (r : Nat), (∀ c, c ≠ 0 → rows[c]? = rows'[c]?) →
    (∀ t, divStep t r rows = divStep t r rows') ∧
    (∀ data, rsRemainder data r rows = rsRemainder data r rows'))

/-- R140, R144: the remainder has exactly r bytes, and a block of zero bytes has zero ECC. -/
def Obligations.RemainderShape : Prop :=
  (∀ (data : List Byte) (r : Nat) (rows : List (List Byte)), (rsRemainder data r rows).length = r) ∧
  (∀ (d r : Nat) (rows : List (List Byte)), rsRemainder (List.replicate d 0) r rows = List.replicate r 0)

/-- Derived from R144, R145, R146: over a table whose rows are linear in the leading byte, the parity of the XOR of two
blocks is the XOR of their parities, for the blocks of any one length. -/
def Obligations.ParityIsLinear : Prop :=
  ∀ (r : Nat) (rows : List (List Byte)),
    (∀ c : Byte, (rows.getD c.toNat []).length = r) →
    (∀ a b : Byte, rows.getD (a ^^^ b).toNat [] =
      List.zipWith (· ^^^ ·) (rows.getD a.toNat []) (rows.getD b.toNat [])) →
    ∀ x y : List Byte, x.length = y.length →
      rsRemainder (List.zipWith (· ^^^ ·) x y) r rows =
        List.zipWith (· ^^^ ·) (rsRemainder x r rows) (rsRemainder y r rows)

/-- R140, R143, R144, R147: RSENC completes when it is ready. Byte k of the ECC of block i, the remainder of that
block's data codewords, stands at CWM[D + i*r + k]; CWM[0 .. D) is as before. -/
def Obligations.RsencWritesParity : Prop :=
  ∀ (s : State) (rec : LayoutRecord) (rows : List (List Byte)) (data : List Byte),
    RsencReady s rec rows data →
    ∃ t, exec .rsenc s = .next t ∧ t.status = successStatus s ∧ t.eng = .idle ∧ t.irq = s.ctl.ie ∧
      (∀ i k, i < rec.blockOrder.length → k < rec.eccCodewordsPerBlock →
        Memory.read t.cwm (s.dataCount + i * rec.eccCodewordsPerBlock + k) =
          (rsRemainder (blockData rec.eccCodewordsPerBlock rec.blockOrder data i)
            rec.eccCodewordsPerBlock rows)[k]?) ∧
      (∀ a, a < s.dataCount → Memory.read t.cwm a = data[a]?)

/-- R148: the result registers after a successful and after a failed RSENC. -/
def Obligations.RsencResultRegisters : Prop :=
  (∀ (s : State) (rec : LayoutRecord) (rows : List (List Byte)) (data : List Byte),
    RsencReady s rec rows data →
    ∃ t, exec .rsenc s = .next t ∧ t.results.dCount.toNat = s.dataCount ∧
      t.results.cwCount.toNat = s.dataCount + rec.blockOrder.length * rec.eccCodewordsPerBlock ∧
      t.results.cwCount.toNat = rec.blockOrder.sum ∧
      t.results.nBlocks.toNat = rec.blockOrder.length ∧
      t.results.eccR.toNat = rec.eccCodewordsPerBlock ∧
      t.results.totalBits = s.results.totalBits ∧ t.results.termBits = s.results.termBits) ∧
  (∀ s t : State, exec .rsenc s = .next t → t.status.err = true → t.results = s.results)

/-- R140, R230: what RSENC leaves unchanged whenever it completes: every register but STATUS, DCOUNT, CWCOUNT, NBLOCKS
and ECCR, BFM, MM, every byte of CWM below D, and every byte from N = D + n*r on of the record it used. -/
def Obligations.RsencFrame : Prop :=
  ∀ s t : State, exec .rsenc s = .next t →
    t.ctl = s.ctl ∧ t.bfm = s.bfm ∧ t.mm = s.mm ∧ t.config = s.config ∧ t.inputs = s.inputs ∧
      t.response = s.response ∧ t.draws = s.draws ∧ t.results.totalBits = s.results.totalBits ∧
      t.results.termBits = s.results.termBits ∧ t.status.werr = s.status.werr ∧
      t.status.lastOp = s.status.lastOp ∧ t.eng = .idle ∧
      (∀ a, a < s.dataCount → Memory.read t.cwm a = Memory.read s.cwm a) ∧
      (∀ rec, layoutOf s.config s.version s.level = some rec →
        ∀ a, s.dataCount + rec.blockOrder.length * rec.eccCodewordsPerBlock ≤ a →
          Memory.read t.cwm a = Memory.read s.cwm a) ∧
      (layoutOf s.config s.version s.level = none → t.cwm = s.cwm)

/-- R140, R142, R223, R225, R228, R229: the errors of RSENC in their order. -/
def Obligations.RsencChecksInOrder : Prop :=
  ∀ s : State,
    (¬ (1 ≤ s.version ∧ s.version ≤ 40) → exec .rsenc s = .next (errorReported s .versionRange)) ∧
    ((1 ≤ s.version ∧ s.version ≤ 40) →
      (s.capacity = 0 ∨ s.capacity % 8 ≠ 0 ∨ s.config.nCw < s.capacity >>> 3) →
        exec .rsenc s = .next (errorReported s .badCapacity)) ∧
    ((1 ≤ s.version ∧ s.version ≤ 40) → 0 < s.capacity → s.capacity % 8 = 0 →
      s.capacity >>> 3 ≤ s.config.nCw → (∀ rec rows, ¬ RsTablesConsistent s rec rows) →
        exec .rsenc s = .next (errorReported s .malformedTable))

/-- R241 for RSENC and PLACE: with every check passing, the first codeword they read that was never written stops them
with UNINIT_READ of CWM. -/
def Obligations.UnwrittenCodewordFaults : Prop :=
  (∀ (s : State) (rec : LayoutRecord) (rows : List (List Byte)) (k : Nat),
    1 ≤ s.version → s.version ≤ 40 → 0 < s.capacity → s.capacity % 8 = 0 → s.dataCount ≤ s.config.nCw →
    RsTablesConsistent s rec rows → k < s.dataCount → Memory.read s.cwm k = none →
    (∀ j, j < k → Memory.read s.cwm j ≠ none) → exec .rsenc s = .fault (.uninitRead .cwm k)) ∧
  (∀ (s : State) (rec : LayoutRecord) (k : Nat),
    1 ≤ s.version → s.version ≤ 40 → PlaceTablesConsistent s rec → k < totalCodewords rec →
    Memory.read s.cwm k = none → (∀ j, j < k → Memory.read s.cwm j ≠ none) →
      exec .place s = .fault (.uninitRead .cwm k))

/-! ## PLACE -/

/-- R170, R174 to R178: PLACE completes when it is ready. The module of position p holds (255 * bit) XOR mask(p), bit
being bit `7 - ((p - 1) & 7)` of codeword `(p - 1) >> 3` for p <= 8*N and 1 for the remainder bits, unless a later
write names the same module: the writes come codeword by codeword, j = 8 down to 1, then the remainder bits. -/
def Obligations.PlaceWritesModules : Prop :=
  ∀ (s : State) (rec : LayoutRecord) (cs : List Byte), PlaceReady s rec cs →
    ∃ t, exec .place s = .next t ∧ t.status = successStatus s ∧ t.eng = .idle ∧ t.irq = s.ctl.ie ∧
      t.results.cwCount.toNat = rec.blockOrder.sum ∧
      ∀ p, 1 ≤ p → p ≤ positionCount rec →
        (∀ q, 1 ≤ q → q ≤ positionCount rec →
          xCoord rec q = xCoord rec p → yCoord rec q = yCoord rec p →
            placeRank cs.length q ≤ placeRank cs.length p) →
        Memory.read t.mm (xCoord rec p * (17 + 4 * s.version) + yCoord rec p) =
          some ((if placedBit cs p then 0xFF else 0x00) ^^^ maskByte rec p)

/-- R173, R179: every byte of MM that no position index names is 0 after PLACE, inside the grid and outside it. -/
def Obligations.UnplacedModulesAreZero : Prop :=
  ∀ (s : State) (rec : LayoutRecord) (cs : List Byte), PlaceReady s rec cs →
    ∃ t, exec .place s = .next t ∧
      ∀ a, a < 31329 →
        (∀ p, 1 ≤ p → p ≤ positionCount rec →
          xCoord rec p * (17 + 4 * s.version) + yCoord rec p ≠ a) →
        Memory.read t.mm a = some 0

/-- R170, R230: what PLACE leaves unchanged whenever it completes: every register but STATUS and CWCOUNT, BFM and CWM;
and MM too when it ends with an error. -/
def Obligations.PlaceFrame : Prop :=
  ∀ s t : State, exec .place s = .next t →
    t.ctl = s.ctl ∧ t.bfm = s.bfm ∧ t.cwm = s.cwm ∧ t.config = s.config ∧ t.inputs = s.inputs ∧
      t.response = s.response ∧ t.draws = s.draws ∧
      t.results = { s.results with cwCount := t.results.cwCount } ∧ t.status.werr = s.status.werr ∧
      t.status.lastOp = s.status.lastOp ∧ t.eng = .idle ∧ (t.status.err = true → t.mm = s.mm)

/-- R170, R172, R223, R225, R229: the errors of PLACE in their order. -/
def Obligations.PlaceChecksInOrder : Prop :=
  ∀ s : State,
    (¬ (1 ≤ s.version ∧ s.version ≤ 40) → exec .place s = .next (errorReported s .versionRange)) ∧
    ((1 ≤ s.version ∧ s.version ≤ 40) → (∀ rec, ¬ PlaceTablesConsistent s rec) →
      exec .place s = .next (errorReported s .malformedTable))

/-! ## ENCODE -/

/-- R201: when every check passes, ENCODE is PACK, then RSENC from the state PACK leaves, then PLACE from the state
RSENC leaves: it completes in the very state the three commands, run one after the other, complete in, with the result
registers of all three. -/
def Obligations.EncodeIsThePipeline : Prop :=
  ∀ (s : State) (es : List Entry) (rec : LayoutRecord) (rows : List (List Byte)), EncodeReady s es rec rows →
    ∃ s1 s2 s3, exec .pack s = .next s1 ∧ exec .rsenc s1 = .next s2 ∧ exec .place s2 = .next s3 ∧
      exec .encode s = .next s3 ∧ s3.status = successStatus s ∧
      s3.results.totalBits.toNat = totalDataBits es ∧
      s3.results.termBits.toNat = terminatorWidth (totalDataBits es) s.capacity ∧
      s3.results.dCount.toNat = s.capacity >>> 3 ∧ s3.results.cwCount.toNat = rec.blockOrder.sum ∧
      s3.results.nBlocks.toNat = rec.blockOrder.length ∧ s3.results.eccR.toNat = rec.eccCodewordsPerBlock

/-- R201, R229: the errors of ENCODE in their order, the entries being written. -/
def Obligations.EncodeChecksInOrder : Prop :=
  (∀ s : State, s.config.nBf < s.entryCount → exec .encode s = .next (errorReported s .badBitfield)) ∧
  (∀ (s : State) (es : List Entry), HoldsEntries s es →
    (¬ AllLegal es → exec .encode s = .next (errorReported s .badBitfield)) ∧
    (AllLegal es → totalDataBits es = 0 → exec .encode s = .next (errorReported s .emptyData)) ∧
    (AllLegal es → 0 < totalDataBits es → ¬ (1 ≤ s.version ∧ s.version ≤ 40) →
      exec .encode s = .next (errorReported s .versionRange)) ∧
    (AllLegal es → 0 < totalDataBits es → (1 ≤ s.version ∧ s.version ≤ 40) →
      (s.capacity = 0 ∨ s.capacity % 8 ≠ 0 ∨ s.config.nCw < s.capacity >>> 3) →
        exec .encode s = .next (errorReported s .badCapacity)) ∧
    (AllLegal es → (1 ≤ s.version ∧ s.version ≤ 40) → 0 < s.capacity → s.capacity % 8 = 0 →
      s.capacity >>> 3 ≤ s.config.nCw → s.capacity < totalDataBits es →
        exec .encode s = .next (errorReported s .capacityOverflow)) ∧
    (PackReady s es → (1 ≤ s.version ∧ s.version ≤ 40) →
      ((∀ rec rows, ¬ RsTablesConsistent s rec rows) ∨ (∀ rec, ¬ PlaceTablesConsistent s rec)) →
        exec .encode s = .next (errorReported s .malformedTable)))

/-- R201: ENCODE never meets an unwritten codeword. Its only fault is an unwritten BitField entry. -/
def Obligations.EncodeFaultsOnlyOnBitField : Prop :=
  ∀ (s : State) (f : Fault), exec .encode s = .fault f → ∃ k, f = .uninitRead .bfm k

/-- R201, R94: what ENCODE leaves unchanged whenever it completes: the control registers, BFM, WERR, LASTOP, and every
byte of CWM from N on of the record it used; on an error CWM and MM too. -/
def Obligations.EncodeFrame : Prop :=
  ∀ s t : State, exec .encode s = .next t →
    t.ctl = s.ctl ∧ t.bfm = s.bfm ∧ t.config = s.config ∧ t.inputs = s.inputs ∧ t.response = s.response ∧
      t.draws = s.draws ∧ t.status.werr = s.status.werr ∧ t.status.lastOp = s.status.lastOp ∧ t.eng = .idle ∧
      (∀ rec, layoutOf s.config s.version s.level = some rec →
        ∀ a, totalCodewords rec ≤ a → Memory.read t.cwm a = Memory.read s.cwm a) ∧
      (t.status.err = true → t.cwm = s.cwm ∧ t.mm = s.mm ∧ t.results = s.results)

/-! ## SRESET -/

/-- R202 with ENG = IDLE: every register is 0, IRQ is 0, and CWM, MM and BFM are unchanged. -/
def Obligations.SresetWhenIdle : Prop :=
  ∀ s : State, s.eng = .idle →
    exec .sreset s = .next { s with
      ctl := { ie := false, version := 0, level := 0, maxDataBits := 0, bfCount := 0 }
      status := { done := false, err := false, werr := false, ecode := .none, lastOp := 0 }
      results := { totalBits := 0, termBits := 0, dCount := 0, cwCount := 0, nBlocks := 0, eccR := 0 }
      eng := .idle, irq := false }

/-- R202 with ENG = PENDING(op): the command is aborted, ENG is idle and every register is 0 as above, BFM is
unchanged; CWM is untouched by the abort of PLACE and wholly written otherwise, MM is untouched by the abort of PACK
and RSENC and wholly written otherwise. -/
def Obligations.SresetAbortsPending : Prop :=
  ∀ (s : State) (op : EngineOp), s.eng = .pending op →
    ∃ t, exec .sreset s = .next t ∧ t.eng = .idle ∧ t.irq = false ∧ t.ctl = State.reset.ctl ∧
      t.status = State.reset.status ∧ t.results = State.reset.results ∧ t.bfm = s.bfm ∧
      t.config = s.config ∧ t.inputs = s.inputs ∧ t.response = s.response ∧
      (op = .place → t.cwm = s.cwm) ∧
      (op ≠ .place → ∀ k, (Memory.read t.cwm k).isSome = decide (k < s.config.nCw)) ∧
      (op = .pack ∨ op = .rsenc → t.mm = s.mm) ∧
      (op = .place ∨ op = .encode → ∀ k, (Memory.read t.mm k).isSome = decide (k < 31329))

/-! ## Errors, status and interrupt -/

/-- R230, R231: an engine command that ends with an error wrote to no memory and to no result register; it set ERR,
DONE, ECODE to a code that is not 0, and ENG ← IDLE, and nothing else but IRQ changed. -/
def Obligations.ErrorWritesNothing : Prop :=
  ∀ (op : EngineOp) (s t : State), exec op.instr s = .next t → t.status.err = true →
    ∃ c : ErrorCode, c ≠ .none ∧ t = { s with
      status := { done := true, err := true, werr := s.status.werr, ecode := c, lastOp := s.status.lastOp }
      eng := .idle
      irq := s.ctl.ie }

/-- R221: the codes an engine command can report, by command. -/
def Obligations.ErrorCodesByCommand : Prop :=
  (∀ s t : State, exec .pack s = .next t →
    t.status.ecode ∈ [.none, .badBitfield, .emptyData, .badCapacity, .capacityOverflow]) ∧
  (∀ s t : State, exec .rsenc s = .next t →
    t.status.ecode ∈ [.none, .versionRange, .badCapacity, .malformedTable]) ∧
  (∀ s t : State, exec .place s = .next t → t.status.ecode ∈ [.none, .versionRange, .malformedTable]) ∧
  (∀ s t : State, exec .encode s = .next t →
    t.status.ecode ∈ [.none, .badBitfield, .emptyData, .versionRange, .badCapacity, .capacityOverflow,
      .malformedTable]) ∧
  (∀ (op : EngineOp) (s t : State), exec op.instr s = .next t →
    (t.status.err = true ↔ t.status.ecode ≠ .none))

/-- R46: IRQ = CTRL.IE & STATUS.DONE after every step, from every state, and IRQ is 0 after reset. -/
def Obligations.IrqFollowsDone : Prop :=
  (∀ s t : State, step s = .next t → t.irq = (t.ctl.ie && t.status.done)) ∧ State.reset.irq = false

/-- R25, R232: a write of `w` to STATUS while BUSY = 0. A 1 in bit 1, 2, 3 clears DONE, ERR, WERR; clearing ERR clears
ECODE; LASTOP, BUSY and everything outside STATUS stay but IRQ. -/
def Obligations.StatusWriteOneClears : Prop :=
  ∀ (s : State) (w : Word), s.eng = .idle →
    ∃ t, perform (.access (.write 0x00000C .w32 w)) s = .next t ∧
      t = { s with status := t.status, response := .written, irq := s.ctl.ie && t.status.done } ∧
      t.status.done = (s.status.done && !w.getLsbD 1) ∧ t.status.err = (s.status.err && !w.getLsbD 2) ∧
      t.status.werr = (s.status.werr && !w.getLsbD 3) ∧ t.status.lastOp = s.status.lastOp ∧
      (w.getLsbD 2 = true → t.status.ecode = .none) ∧ (w.getLsbD 2 = false → t.status.ecode = s.status.ecode)

/-- R234: WERR is sticky. A step clears it only if it is the reset input, the word 0x0000_000F written to CMD, or a
write with bit 3 set to STATUS while BUSY = 0. -/
def Obligations.WerrIsSticky : Prop :=
  ∀ s t : State, step s = .next t → s.status.werr = true → t.status.werr = false →
    ∃ rest, s.inputs = .hardReset :: rest ∨ s.inputs = cmdWriteEvent 0x0000000F#32 :: rest ∨
      ∃ w, s.inputs = .access (.write 0x00000C .w32 w) :: rest ∧ w.getLsbD 3 = true ∧ s.busy = false

/-! ## The host's port -/

/-- R23 to R36, R61, R69: what a 32-bit read of each offset of the register page returns, BUSY or not: the fields of
the register at that offset, reserved bits 0, and 0 where no register stands. Nothing but the response changes. -/
def Obligations.RegisterReadValues : Prop :=
  ∀ (s : State) (addr : BusAddr), addr.toNat < 0x1000 → addr.toNat % 4 = 0 →
    ∃ v : Word, perform (.access (.read addr .w32)) s =
        .next { s with response := .data v, irq := s.ctl.ie && s.status.done } ∧
      v.toNat =
        if addr.toNat = 0x000 then 0x51525345
        else if addr.toNat = 0x004 then s.ctl.ie.toNat
        else if addr.toNat = 0x00C then
          s.busy.toNat + 2 * s.status.done.toNat + 4 * s.status.err.toNat + 8 * s.status.werr.toNat +
            256 * s.status.ecode.code.toNat + 65536 * s.status.lastOp.toNat
        else if addr.toNat = 0x010 then s.ctl.version.toNat + 256 * s.ctl.level.toNat
        else if addr.toNat = 0x014 then s.ctl.maxDataBits.toNat
        else if addr.toNat = 0x018 then s.ctl.bfCount.toNat
        else if addr.toNat = 0x01C then s.results.totalBits.toNat
        else if addr.toNat = 0x020 then s.results.termBits.toNat
        else if addr.toNat = 0x024 then s.results.dCount.toNat
        else if addr.toNat = 0x028 then s.results.cwCount.toNat
        else if addr.toNat = 0x02C then s.results.nBlocks.toNat
        else if addr.toNat = 0x030 then s.results.eccR.toNat
        else if addr.toNat = 0x034 then
          (if 1 ≤ s.ctl.version.toNat ∧ s.ctl.version.toNat ≤ 40 then 17 + 4 * s.ctl.version.toNat else 0)
        else 0

/-- R25: the numbers of the error codes, and BUSY: 1 exactly when ENG = PENDING(op). -/
def Obligations.StatusFieldCodes : Prop :=
  (ErrorCode.code .none = 0 ∧ ErrorCode.code .emptyData = 1 ∧ ErrorCode.code .versionRange = 2 ∧
    ErrorCode.code .capacityOverflow = 3 ∧ ErrorCode.code .malformedTable = 4 ∧
    ErrorCode.code .illegalCmd = 5 ∧ ErrorCode.code .badBitfield = 6 ∧ ErrorCode.code .badCapacity = 7) ∧
  (∀ s : State, s.statusWord.getLsbD 0 = true ↔ ∃ op, s.eng = .pending op)

/-- R23, R26, R27, R28, R69: a 32-bit write of the register page while BUSY = 0, other than to CMD and STATUS: the RW
fields of CTRL, CFG, MAXDATABITS and BFCOUNT take their bits, every other bit and register ignores the write. -/
def Obligations.RegisterWriteEffects : Prop :=
  ∀ (s : State) (addr : BusAddr) (w : Word), s.eng = .idle → addr.toNat < 0x1000 → addr.toNat % 4 = 0 →
    addr.toNat ≠ 0x008 → addr.toNat ≠ 0x00C →
    ∃ t, perform (.access (.write addr .w32 w)) s = .next t ∧
      t = { s with ctl := t.ctl, response := .written, irq := t.ctl.ie && s.status.done } ∧
      t.ctl.ie = (if addr.toNat = 0x004 then w.getLsbD 0 else s.ctl.ie) ∧
      t.ctl.version.toNat = (if addr.toNat = 0x010 then w.toNat % 64 else s.ctl.version.toNat) ∧
      t.ctl.level.toNat = (if addr.toNat = 0x010 then w.toNat / 256 % 4 else s.ctl.level.toNat) ∧
      t.ctl.maxDataBits.toNat =
        (if addr.toNat = 0x014 then w.toNat % 65536 else s.ctl.maxDataBits.toNat) ∧
      t.ctl.bfCount.toNat = (if addr.toNat = 0x018 then w.toNat % 65536 else s.ctl.bfCount.toNat)

/-- R68, R67, R61, R235: an access the bus map does not take gets an error response, reads return 0, and nothing
changes, BUSY or not (that the access is judged before BUSY is the model's reading, log 5). -/
def Obligations.BusErrorChangesNothing : Prop :=
  ∀ (s : State) (addr : BusAddr) (width : Width), ¬ LegalAccess s.config addr width →
    perform (.access (.read addr width)) s =
      .next { s with response := .readError 0, irq := s.ctl.ie && s.status.done } ∧
    ∀ w, perform (.access (.write addr width w)) s =
      .next { s with response := .writeError, irq := s.ctl.ie && s.status.done }

/-- R71: a host read, whatever it reaches, changes nothing but the response, IRQ's level, and the model's count of
free values used (log 3). -/
def Obligations.ReadsHaveNoSideEffects : Prop :=
  ∀ (s : State) (addr : BusAddr) (width : Width),
    ∃ r d, perform (.access (.read addr width)) s =
      .next { s with response := r, draws := s.draws + d, irq := s.ctl.ie && s.status.done }

/-- R63, R65, R67, R80: a host write of n = 1, 2 or 4 bytes to CWM while BUSY = 0 stores data[8i+7:8i] at byte k + i and
leaves every other byte and everything else unchanged. -/
def Obligations.HostWriteToCodewords : Prop :=
  ∀ (s : State) (addr : BusAddr) (width : Width) (w : Word) (k : Nat), s.eng = .idle →
    addr.toNat = 0x200000 + k → k % width.bytes = 0 → k + width.bytes ≤ s.config.nCw →
    ∃ t, perform (.access (.write addr width w)) s = .next t ∧
      t = { s with cwm := t.cwm, response := .written, irq := s.ctl.ie && s.status.done } ∧
      (∀ i, i < width.bytes → Memory.read t.cwm (k + i) = some (w.extractLsb' (8 * i) 8)) ∧
      (∀ a, (a < k ∨ k + width.bytes ≤ a) → Memory.read t.cwm a = Memory.read s.cwm a)

/-- R64, R65, R67, R80: the same for MM. -/
def Obligations.HostWriteToMatrix : Prop :=
  ∀ (s : State) (addr : BusAddr) (width : Width) (w : Word) (k : Nat), s.eng = .idle →
    addr.toNat = 0x300000 + k → k % width.bytes = 0 → k + width.bytes ≤ 31329 →
    ∃ t, perform (.access (.write addr width w)) s = .next t ∧
      t = { s with mm := t.mm, response := .written, irq := s.ctl.ie && s.status.done } ∧
      (∀ i, i < width.bytes → Memory.read t.mm (k + i) = some (w.extractLsb' (8 * i) 8)) ∧
      (∀ a, (a < k ∨ k + width.bytes ≤ a) → Memory.read t.mm a = Memory.read s.mm a)

/-- R65, R72: a host read of n written bytes of CWM or MM while BUSY = 0 returns them, the byte at the lowest offset in
data[7:0] (that the bits above a narrow read are zero is the model's choice, log 6). -/
def Obligations.HostReadOfWrittenBytes : Prop :=
  ∀ (s : State) (addr : BusAddr) (width : Width) (k : Nat) (byte : Nat → Byte), s.eng = .idle →
    k % width.bytes = 0 →
    ((addr.toNat = 0x200000 + k ∧ k + width.bytes ≤ s.config.nCw ∧
        ∀ i, i < width.bytes → Memory.read s.cwm (k + i) = some (byte i)) ∨
     (addr.toNat = 0x300000 + k ∧ k + width.bytes ≤ 31329 ∧
        ∀ i, i < width.bytes → Memory.read s.mm (k + i) = some (byte i))) →
    ∃ t v, perform (.access (.read addr width)) s = .next t ∧ t.response = .data v ∧
      (∀ i, i < width.bytes → v.extractLsb' (8 * i) 8 = byte i) ∧ v.toNat < 256 ^ width.bytes

/-- R62, R95: a host write of a word to entry i of BFM while BUSY = 0: commands then read VALUE = data[23:0] and
WIDTH = data[28:24] there, every other byte of BFM and everything else is unchanged, and a host read of the entry
returns the word with bits 31:29 zero. -/
def Obligations.EntryWriteThenRead : Prop :=
  ∀ (s : State) (addr : BusAddr) (w : Word) (i : Nat), s.eng = .idle →
    addr.toNat = 0x100000 + 4 * i → i < s.config.nBf →
    ∃ t u, perform (.access (.write addr .w32 w)) s = .next t ∧
      t = { s with bfm := t.bfm, response := .written, irq := s.ctl.ie && s.status.done } ∧
      readEntry t.bfm i = .ok { value := w.extractLsb' 0 24, width := w.extractLsb' 24 5 } ∧
      (∀ a, (a < 4 * i ∨ 4 * i + 4 ≤ a) → Memory.read t.bfm a = Memory.read s.bfm a) ∧
      perform (.access (.read addr .w32)) t = .next u ∧ u.response = .data (w &&& 0x1FFFFFFF#32)

/-! ## Reset -/

/-- R47, R260, R263: the machine after reset. -/
def Obligations.ResetValues : Prop :=
  State.reset.ctl = { ie := false, version := 0, level := 0, maxDataBits := 0, bfCount := 0 } ∧
  State.reset.statusWord = 0 ∧
  State.reset.results = { totalBits := 0, termBits := 0, dCount := 0, cwCount := 0, nBlocks := 0, eccR := 0 } ∧
  State.reset.eng = .idle ∧ State.reset.irq = false ∧
  (∀ k, Memory.read State.reset.bfm k = none ∧ Memory.read State.reset.cwm k = none ∧
    Memory.read State.reset.mm k = none) ∧
  State.reset.readRegister .id = 0x51525345#32 ∧ State.reset.readRegister .side = 0

/-- R260, R262: the reset input, at any time: every register takes its reset value, ENG ← IDLE, every init bit is
cleared and IRQ ← 0. (That the parameters, the waiting events and the draw counter stay and that no response stands is
the model's choice, log 10.) -/
def Obligations.HardResetRule : Prop :=
  ∀ s : State, perform .hardReset s =
    .next { State.reset with config := s.config, inputs := s.inputs, draws := s.draws }

/-! ## The whole machine -/

/-- The machine after reset meets the invariant. -/
def Obligations.ResetMeetsInvariant : Prop := Invariant State.reset

/-- Every step keeps the invariant: the memories stay canonical and inside their windows with the reserved bits of
BFM words clear, ECODE is 0 exactly when ERR = 0, IRQ is at its level, a pending command has no report and is the one
LASTOP names, and the result registers stay within their bounds. -/
def Obligations.StepKeepsInvariant : Prop :=
  ∀ s t : State, Invariant s → step s = .next t → Invariant t

/-- R76: the tables and the depths are the same at every step (that the state carries them is the model's choice,
log 2). -/
def Obligations.StepKeepsParameters : Prop :=
  ∀ s t : State, step s = .next t → t.config = s.config

/-- R37, R38, R39, R94, R202: which command writes which memory. No command writes BFM; NOP and PLACE do not write CWM;
NOP, PACK and RSENC do not write MM; SRESET writes CWM or MM only when it aborts a command that writes it. -/
def Obligations.CommandsWriteTheirMemoriesOnly : Prop :=
  ∀ (i : Instr) (s t : State), exec i s = .next t →
    t.bfm = s.bfm ∧
    (i = .nop ∨ i = .place → t.cwm = s.cwm) ∧
    (i = .nop ∨ i = .pack ∨ i = .rsenc → t.mm = s.mm) ∧
    (i = .sreset → s.eng = .idle ∨ s.eng = .pending .place → t.cwm = s.cwm) ∧
    (i = .sreset → s.eng ≠ .pending .place → s.eng ≠ .pending .encode → t.mm = s.mm)

/-- R220, R241: no step refuses, and a step faults only when the engine executes a pending command that reads a byte
of BFM or CWM nothing has written. -/
def Obligations.OnlyUnwrittenReadsStop : Prop :=
  (∀ (s : State) (r : Refusal), step s ≠ .refused r) ∧
  (∀ (s : State) (f : Fault), step s = .fault f →
    (∃ op, s.eng = .pending op) ∧
      ((∃ k, f = .uninitRead .bfm k ∧ Memory.read s.bfm k = none) ∨
       (∃ k, f = .uninitRead .cwm k ∧ Memory.read s.cwm k = none)))
end

