-- ==== Sys2Proof/Laws/Memory.lean ====
section
/-! SUPPORT. What each operation over a memory does: what a read gives after it, that it keeps the canonical form, and
that it stays inside its window. -/

namespace Sys2Proof.Machine

@[simp] theorem Memory.read_nil (k : Nat) : Memory.read [] k = none := rfl

/-- A byte below every listed index is not written. -/
theorem Memory.read_of_forall_lt {m : Memory} {k : Nat} (h : ∀ c ∈ m, k < c.1) :
    Memory.read m k = none := by
  induction m with
  | nil => rfl
  | cons c m ih =>
    obtain ⟨a, b⟩ := c
    have ha : k < a := h (a, b) (by simp)
    simp only [Memory.read, if_neg (Nat.ne_of_gt ha)]
    exact ih fun c hc => h c (by simp [hc])

/-- A read after a write, in every memory, canonical or not: the value written at its place, what was read before
elsewhere. -/
@[simp] theorem Memory.read_write (m : Memory) (k j : Nat) (v : Byte) :
    Memory.read (Memory.write m k v) j = if k = j then some v else Memory.read m j := by
  induction m with
  | nil => simp [Memory.write, Memory.read]
  | cons c m ih =>
    obtain ⟨a, b⟩ := c
    by_cases hlt : k < a
    · simp [Memory.write, hlt, Memory.read]
    · by_cases heq : k = a
      · subst heq
        by_cases hkj : k = j <;> simp [Memory.write, Memory.read, hkj]
      · simp only [Memory.write, hlt, heq, if_false, Memory.read]
        rw [ih]
        by_cases haj : a = j
        · have : k ≠ j := fun h => heq (h.trans haj.symm)
          simp [haj, this]
        · simp [haj]

theorem Memory.mem_write {m : Memory} {k : Nat} {v : Byte} {c : Host.Cell}
    (h : c ∈ Memory.write m k v) : c = (k, v) ∨ c ∈ m := by
  induction m with
  | nil => simpa [Memory.write] using h
  | cons d m ih =>
    obtain ⟨a, b⟩ := d
    simp only [Memory.write] at h
    split at h
    · simpa using h
    · split at h
      · rcases List.mem_cons.mp h with h | h
        · exact .inl h
        · exact .inr (List.mem_cons_of_mem _ h)
      · rcases List.mem_cons.mp h with h | h
        · exact .inr (by simp [h])
        · exact (ih h).imp id (List.mem_cons_of_mem _)

theorem Memory.write_wf {m : Memory} (hm : m.wf) (k : Nat) (v : Byte) : (Memory.write m k v).wf := by
  induction m with
  | nil => simp [Memory.write]
  | cons d m ih =>
    obtain ⟨a, b⟩ := d
    have hm' := List.pairwise_cons.mp hm
    simp only [Memory.write]
    split
    · rename_i hlt
      refine List.pairwise_cons.mpr ⟨fun c hc => ?_, hm⟩
      rcases List.mem_cons.mp hc with rfl | hc
      · exact hlt
      · exact Nat.lt_trans hlt (hm'.1 c hc)
    · split
      · rename_i heq
        subst heq
        exact List.pairwise_cons.mpr hm'
      · rename_i hlt hne
        refine List.pairwise_cons.mpr ⟨fun c hc => ?_, ih hm'.2⟩
        rcases Memory.mem_write hc with rfl | hc
        · show a < k
          omega
        · exact hm'.1 c hc

theorem Memory.write_below {m : Memory} {n k : Nat} (hm : m.below n) (hk : k < n) (v : Byte) :
    (Memory.write m k v).below n := fun c hc => by
  rcases Memory.mem_write hc with rfl | hc
  · exact hk
  · exact hm c hc

/-- A listed byte is read as it is listed. -/
theorem Memory.read_eq_some_iff {m : Memory} (hm : m.wf) (k : Nat) (v : Byte) :
    Memory.read m k = some v ↔ (k, v) ∈ m := by
  induction m with
  | nil => simp
  | cons d m ih =>
    obtain ⟨a, b⟩ := d
    have hm' := List.pairwise_cons.mp hm
    by_cases hak : a = k
    · subst hak
      simp only [Memory.read, if_true, Option.some.injEq, List.mem_cons, Prod.mk.injEq, true_and]
      refine ⟨fun h => .inl h.symm, fun h => ?_⟩
      rcases h with h | h
      · exact h.symm
      · exact absurd (hm'.1 _ h) (Nat.lt_irrefl a)
    · simp only [Memory.read, hak, if_false, ih hm'.2, List.mem_cons, Prod.mk.injEq]
      refine ⟨.inr, fun h => ?_⟩
      rcases h with ⟨h, -⟩ | h
      · exact absurd h.symm hak
      · exact h

/-- Two canonical memories that read alike are the same list. -/
theorem Memory.ext_read {m m' : Memory} (hm : m.wf) (hm' : m'.wf)
    (h : ∀ k, Memory.read m k = Memory.read m' k) : m = m' := by
  have hmem : ∀ c, c ∈ m ↔ c ∈ m' := fun c => by
    rw [← Memory.read_eq_some_iff hm, ← Memory.read_eq_some_iff hm', h]
  have nodup : ∀ {l : Memory}, l.wf → l.Nodup := fun hl =>
    hl.imp fun hlt heq => by rw [heq] at hlt; exact Nat.lt_irrefl _ hlt
  have hperm : m.Perm m' := (List.perm_ext_iff_of_nodup (nodup hm) (nodup hm')).mpr hmem
  exact hperm.eq_of_pairwise (fun a b _ _ h1 h2 => absurd (Nat.lt_trans h1 h2) (Nat.lt_irrefl _)) hm hm'

/-! Runs of bytes. -/

theorem Memory.writeBytes_wf {m : Memory} (hm : m.wf) (k : Nat) (bs : List Byte) :
    (Memory.writeBytes m k bs).wf := by
  induction bs generalizing m k with
  | nil => exact hm
  | cons b bs ih => exact ih (Memory.write_wf hm k b) (k + 1)

theorem Memory.writeBytes_below {m : Memory} {n k : Nat} {bs : List Byte} (hm : m.below n)
    (hk : k + bs.length ≤ n) : (Memory.writeBytes m k bs).below n := by
  induction bs generalizing m k with
  | nil => exact hm
  | cons b bs ih =>
    rw [List.length_cons] at hk
    exact ih (Memory.write_below hm (by omega) b) (by omega)

theorem Memory.mem_writeBytes {m : Memory} {k : Nat} {bs : List Byte} {c : Host.Cell}
    (h : c ∈ Memory.writeBytes m k bs) :
    (∃ i, ∃ hi : i < bs.length, c = (k + i, bs[i])) ∨ c ∈ m := by
  induction bs generalizing m k with
  | nil => exact .inr h
  | cons b bs ih =>
    rcases ih h with ⟨i, hi, rfl⟩ | h
    · exact .inl ⟨i + 1, by simpa using hi, by simp only [List.getElem_cons_succ]; congr 1; omega⟩
    · rcases Memory.mem_write h with rfl | h
      · exact .inl ⟨0, by simp, rfl⟩
      · exact .inr h

/-- A read after a run of bytes was written: inside the run the byte written, outside it what was read before. -/
theorem Memory.read_writeBytes (m : Memory) (k j : Nat) (bs : List Byte) :
    Memory.read (Memory.writeBytes m k bs) j =
      if k ≤ j then (bs[j - k]?).or (Memory.read m j) else Memory.read m j := by
  induction bs generalizing m k with
  | nil => simp [Memory.writeBytes]
  | cons b bs ih =>
    rw [Memory.writeBytes, ih, Memory.read_write]
    rcases Nat.lt_trichotomy k j with h | h | h
    · have h1 : k ≤ j := by omega
      have h2 : k + 1 ≤ j := h
      have h3 : k ≠ j := by omega
      have h4 : j - k = (j - (k + 1)) + 1 := by omega
      simp [h1, h2, h3, h4]
    · subst h
      simp
    · have h1 : ¬ k ≤ j := by omega
      have h2 : ¬ k + 1 ≤ j := by omega
      have h3 : k ≠ j := by omega
      simp [h1, h2, h3]

theorem Memory.read_writeBytes_of_lt {m : Memory} {k i : Nat} {bs : List Byte}
    (hi : i < bs.length) : Memory.read (Memory.writeBytes m k bs) (k + i) = some bs[i] := by
  simp [Memory.read_writeBytes, hi]

/-- The frame of a run of bytes. -/
theorem Memory.read_writeBytes_of_outside {m : Memory} {k j : Nat} {bs : List Byte}
    (hj : j < k ∨ k + bs.length ≤ j) :
    Memory.read (Memory.writeBytes m k bs) j = Memory.read m j := by
  rw [Memory.read_writeBytes]
  split
  · rw [List.getElem?_eq_none (by omega), Option.none_or]
  · rfl

/-! Cells in order. -/

theorem Memory.writeCells_wf {m : Memory} (hm : m.wf) (cells : List Host.Cell) :
    (Memory.writeCells m cells).wf := by
  induction cells generalizing m with
  | nil => exact hm
  | cons c cells ih => exact ih (Memory.write_wf hm c.1 c.2)

theorem Memory.writeCells_below {m : Memory} {n : Nat} {cells : List Host.Cell} (hm : m.below n)
    (hc : ∀ c ∈ cells, c.1 < n) : (Memory.writeCells m cells).below n := by
  induction cells generalizing m with
  | nil => exact hm
  | cons c cells ih =>
    exact ih (Memory.write_below hm (hc c (by simp)) c.2) fun d hd => hc d (by simp [hd])

theorem Memory.writeCells_append (m : Memory) (xs ys : List Host.Cell) :
    Memory.writeCells m (xs ++ ys) = Memory.writeCells (Memory.writeCells m xs) ys := by
  simp [Memory.writeCells]

/-- The frame of a list of cells: a byte none of them names. -/
theorem Memory.read_writeCells_of_forall_ne {m : Memory} {j : Nat} {cells : List Host.Cell}
    (h : ∀ c ∈ cells, c.1 ≠ j) : Memory.read (Memory.writeCells m cells) j = Memory.read m j := by
  induction cells generalizing m with
  | nil => rfl
  | cons c cells ih =>
    have hc : c.1 ≠ j := h c (by simp)
    show Memory.read (Memory.writeCells (Memory.write m c.1 c.2) cells) j = _
    rw [ih fun d hd => h d (by simp [hd]), Memory.read_write, if_neg hc]

/-- The last cell that names a byte decides it. -/
theorem Memory.read_writeCells_of_last {m : Memory} {pre post : List Host.Cell}
    {c : Host.Cell} (h : ∀ d ∈ post, d.1 ≠ c.1) :
    Memory.read (Memory.writeCells m (pre ++ c :: post)) c.1 = some c.2 := by
  rw [Memory.writeCells_append]
  show Memory.read (Memory.writeCells (Memory.write (Memory.writeCells m pre) c.1 c.2) post) c.1 = _
  rw [Memory.read_writeCells_of_forall_ne h, Memory.read_write, if_pos rfl]

/-! Filled memories. -/

theorem Memory.mem_fill {k n : Nat} {f : Nat → Byte} {c : Host.Cell} :
    c ∈ Memory.fill k n f ↔ k ≤ c.1 ∧ c.1 < k + n ∧ c.2 = f c.1 := by
  induction n generalizing k with
  | zero => simp [Memory.fill]; omega
  | succ n ih =>
    rw [Memory.fill, List.mem_cons, ih]
    obtain ⟨a, b⟩ := c
    simp only [Prod.mk.injEq]
    constructor
    · rintro (⟨rfl, rfl⟩ | ⟨h1, h2, h3⟩)
      · exact ⟨by omega, by omega, rfl⟩
      · exact ⟨by omega, by omega, h3⟩
    · rintro ⟨h1, h2, h3⟩
      by_cases h : a = k
      · exact .inl ⟨h, by rw [h3, h]⟩
      · exact .inr ⟨by omega, by omega, h3⟩

theorem Memory.fill_wf (k n : Nat) (f : Nat → Byte) : (Memory.fill k n f).wf := by
  induction n generalizing k with
  | zero => simp [Memory.fill]
  | succ n ih =>
    refine List.pairwise_cons.mpr ⟨fun c hc => ?_, ih (k + 1)⟩
    have := (Memory.mem_fill.mp hc).1
    show k < c.1
    omega

theorem Memory.fill_below (n : Nat) (f : Nat → Byte) : (Memory.fill 0 n f).below n := fun c hc => by
  have := (Memory.mem_fill.mp hc).2.1
  omega

theorem Memory.read_fill (k n j : Nat) (f : Nat → Byte) :
    Memory.read (Memory.fill k n f) j = if k ≤ j ∧ j < k + n then some (f j) else none := by
  split
  · rename_i h
    exact (Memory.read_eq_some_iff (Memory.fill_wf k n f) j (f j)).mpr (Memory.mem_fill.mpr ⟨h.1, h.2, rfl⟩)
  · rename_i h
    by_contra hne
    obtain ⟨v, hv⟩ := Option.ne_none_iff_exists'.mp hne
    have := Memory.mem_fill.mp ((Memory.read_eq_some_iff (Memory.fill_wf k n f) j v).mp hv)
    exact h ⟨this.1, this.2.1⟩

/-! Command reads. -/

/-- A command reads a byte: its value when it is written, UNINIT_READ otherwise. -/
theorem readByte_cases (which : DataMemory) (m : Memory) (k : Nat) :
    (∃ b, Memory.read m k = some b ∧ readByte which m k = .ok b) ∨
    (Memory.read m k = none ∧ readByte which m k = .error (.modelFault (.uninitRead which k))) := by
  unfold readByte
  split
  · rename_i b h; exact .inl ⟨b, h, rfl⟩
  · rename_i h; exact .inr ⟨h, rfl⟩

theorem readBytes_succ (which : DataMemory) (m : Memory) (k n : Nat) :
    readBytes which m k (n + 1) =
      (readByte which m k).bind fun b => (readBytes which m (k + 1) n).bind fun bs => .ok (b :: bs) := rfl

/-- The bytes a command reads are those held. -/
theorem readBytes_eq_ok_iff (which : DataMemory) (m : Memory) (k n : Nat) (bs : List Byte) :
    readBytes which m k n = .ok bs ↔
      bs.length = n ∧ ∀ i (h : i < bs.length), Memory.read m (k + i) = some bs[i] := by
  induction n generalizing k bs with
  | zero =>
    simp only [readBytes, Except.ok.injEq]
    constructor
    · rintro rfl
      simp
    · rintro ⟨h, -⟩
      exact (List.length_eq_zero_iff.mp h).symm
  | succ n ih =>
    rw [readBytes_succ]
    rcases readByte_cases which m k with ⟨b, hb, hr⟩ | ⟨hb, hr⟩
    · rw [hr]
      show ((readBytes which m (k + 1) n).bind fun bs => Except.ok (b :: bs)) = .ok bs ↔ _
      constructor
      · intro h
        cases hrest : readBytes which m (k + 1) n with
        | error e => rw [hrest] at h; cases h
        | ok rest =>
          rw [hrest] at h
          obtain rfl : b :: rest = bs := Except.ok.inj h
          obtain ⟨hl, hv⟩ := (ih (k + 1) rest).mp hrest
          refine ⟨by simp [hl], fun i hi => ?_⟩
          cases i with
          | zero => simpa using hb
          | succ i =>
            have := hv i (by simpa using hi)
            rw [List.getElem_cons_succ, ← this]
            congr 1
            omega
      · rintro ⟨hl, hv⟩
        cases bs with
        | nil => simp at hl
        | cons c rest =>
          have hc : b = c := by
            have := hv 0 (by simp)
            simpa [hb] using this
          subst hc
          have hrest : readBytes which m (k + 1) n = .ok rest := by
            refine (ih (k + 1) rest).mpr ⟨by simpa using hl, fun i hi => ?_⟩
            have := hv (i + 1) (by simpa using hi)
            simp only [List.getElem_cons_succ] at this
            rw [← this]
            congr 1
            omega
          rw [hrest]
          rfl
    · rw [hr]
      constructor
      · intro h; cases h
      · rintro ⟨hl, hv⟩
        cases bs with
        | nil => simp at hl
        | cons c rest =>
          have := hv 0 (by simp)
          simp [hb] at this

/-- A command that cannot read its bytes faults at the first one nothing has written. -/
theorem readBytes_eq_error_iff (which : DataMemory) (m : Memory) (k n : Nat) (e : Stop) :
    readBytes which m k n = .error e ↔
      ∃ i, i < n ∧ e = .modelFault (.uninitRead which (k + i)) ∧ Memory.read m (k + i) = none ∧
        ∀ j, j < i → Memory.read m (k + j) ≠ none := by
  induction n generalizing k with
  | zero => simp [readBytes]
  | succ n ih =>
    rw [readBytes_succ]
    rcases readByte_cases which m k with ⟨b, hb, hr⟩ | ⟨hb, hr⟩
    · rw [hr]
      have step : (((readBytes which m (k + 1) n).bind fun bs => Except.ok (b :: bs)) = .error e) ↔
          readBytes which m (k + 1) n = .error e := by
        cases readBytes which m (k + 1) n <;> simp [Except.bind]
      show (((readBytes which m (k + 1) n).bind fun bs => Except.ok (b :: bs)) = .error e) ↔ _
      rw [step, ih]
      constructor
      · rintro ⟨i, hi, he, hn, hf⟩
        refine ⟨i + 1, by omega, by rw [he]; congr 2; omega, by rw [← hn]; congr 1; omega, ?_⟩
        intro j hj
        cases j with
        | zero => simp [hb]
        | succ j =>
          have := hf j (by omega)
          rwa [show k + (j + 1) = k + 1 + j by omega]
      · rintro ⟨i, hi, he, hn, hf⟩
        cases i with
        | zero => rw [Nat.add_zero, hb] at hn; cases hn
        | succ i =>
          refine ⟨i, by omega, by rw [he]; congr 2; omega, by rw [← hn]; congr 1; omega, ?_⟩
          intro j hj
          have := hf (j + 1) (by omega)
          rwa [show k + 1 + j = k + (j + 1) by omega]
    · rw [hr]
      constructor
      · intro h
        have he : Stop.modelFault (.uninitRead which k) = e := Except.error.inj h
        exact ⟨0, by omega, by rw [← he]; rfl, by simpa using hb, by omega⟩
      · rintro ⟨i, hi, he, hn, hf⟩
        cases i with
        | zero => rw [he]; rfl
        | succ i => exact absurd hb (by simpa using hf 0 (by omega))

end Sys2Proof.Machine
end

