-- ==== Sys2Proof/Laws/State.lean ====
section
/-! SUPPORT. What each named update of the state leaves in each field: one lemma per field per update. -/

namespace Sys2Proof.Machine

variable (s : State)

/-! `settleIrq` -/

@[simp] theorem State.ctl_settleIrq : (s.settleIrq).ctl = s.ctl := rfl
@[simp] theorem State.status_settleIrq : (s.settleIrq).status = s.status := rfl
@[simp] theorem State.results_settleIrq : (s.settleIrq).results = s.results := rfl
@[simp] theorem State.bfm_settleIrq : (s.settleIrq).bfm = s.bfm := rfl
@[simp] theorem State.cwm_settleIrq : (s.settleIrq).cwm = s.cwm := rfl
@[simp] theorem State.mm_settleIrq : (s.settleIrq).mm = s.mm := rfl
@[simp] theorem State.eng_settleIrq : (s.settleIrq).eng = s.eng := rfl
@[simp] theorem State.irq_settleIrq : (s.settleIrq).irq = s.irqLevel := rfl
@[simp] theorem State.config_settleIrq : (s.settleIrq).config = s.config := rfl
@[simp] theorem State.inputs_settleIrq : (s.settleIrq).inputs = s.inputs := rfl
@[simp] theorem State.response_settleIrq : (s.settleIrq).response = s.response := rfl
@[simp] theorem State.draws_settleIrq : (s.settleIrq).draws = s.draws := rfl

/-! `accept` -/

@[simp] theorem State.ctl_accept (op : BitVec 4) : (s.accept op).ctl = s.ctl := rfl
@[simp] theorem State.status_accept (op : BitVec 4) : (s.accept op).status = s.status.accepted op := rfl
@[simp] theorem State.results_accept (op : BitVec 4) : (s.accept op).results = s.results := rfl
@[simp] theorem State.bfm_accept (op : BitVec 4) : (s.accept op).bfm = s.bfm := rfl
@[simp] theorem State.cwm_accept (op : BitVec 4) : (s.accept op).cwm = s.cwm := rfl
@[simp] theorem State.mm_accept (op : BitVec 4) : (s.accept op).mm = s.mm := rfl
@[simp] theorem State.eng_accept (op : BitVec 4) : (s.accept op).eng = s.eng := rfl
@[simp] theorem State.irq_accept (op : BitVec 4) : (s.accept op).irq = false := by simp [State.accept, State.settleIrq, State.irqLevel, Status.accepted]
@[simp] theorem State.config_accept (op : BitVec 4) : (s.accept op).config = s.config := rfl
@[simp] theorem State.inputs_accept (op : BitVec 4) : (s.accept op).inputs = s.inputs := rfl
@[simp] theorem State.response_accept (op : BitVec 4) : (s.accept op).response = s.response := rfl
@[simp] theorem State.draws_accept (op : BitVec 4) : (s.accept op).draws = s.draws := rfl

/-! `start` -/

@[simp] theorem State.ctl_start (op : EngineOp) : (s.start op).ctl = s.ctl := rfl
@[simp] theorem State.status_start (op : EngineOp) : (s.start op).status = s.status := rfl
@[simp] theorem State.results_start (op : EngineOp) : (s.start op).results = s.results := rfl
@[simp] theorem State.bfm_start (op : EngineOp) : (s.start op).bfm = s.bfm := rfl
@[simp] theorem State.cwm_start (op : EngineOp) : (s.start op).cwm = s.cwm := rfl
@[simp] theorem State.mm_start (op : EngineOp) : (s.start op).mm = s.mm := rfl
@[simp] theorem State.eng_start (op : EngineOp) : (s.start op).eng = .pending op := rfl
@[simp] theorem State.irq_start (op : EngineOp) : (s.start op).irq = s.irq := rfl
@[simp] theorem State.config_start (op : EngineOp) : (s.start op).config = s.config := rfl
@[simp] theorem State.inputs_start (op : EngineOp) : (s.start op).inputs = s.inputs := rfl
@[simp] theorem State.response_start (op : EngineOp) : (s.start op).response = s.response := rfl
@[simp] theorem State.draws_start (op : EngineOp) : (s.start op).draws = s.draws := rfl

/-! `completeOk` -/

@[simp] theorem State.ctl_completeOk : (s.completeOk).ctl = s.ctl := rfl
@[simp] theorem State.status_completeOk : (s.completeOk).status = s.status.succeeded := rfl
@[simp] theorem State.results_completeOk : (s.completeOk).results = s.results := rfl
@[simp] theorem State.bfm_completeOk : (s.completeOk).bfm = s.bfm := rfl
@[simp] theorem State.cwm_completeOk : (s.completeOk).cwm = s.cwm := rfl
@[simp] theorem State.mm_completeOk : (s.completeOk).mm = s.mm := rfl
@[simp] theorem State.eng_completeOk : (s.completeOk).eng = .idle := rfl
@[simp] theorem State.irq_completeOk : (s.completeOk).irq = s.ctl.ie := by simp [State.completeOk, State.settleIrq, State.irqLevel, Status.succeeded]
@[simp] theorem State.config_completeOk : (s.completeOk).config = s.config := rfl
@[simp] theorem State.inputs_completeOk : (s.completeOk).inputs = s.inputs := rfl
@[simp] theorem State.response_completeOk : (s.completeOk).response = s.response := rfl
@[simp] theorem State.draws_completeOk : (s.completeOk).draws = s.draws := rfl

/-! `errorEntry` -/

@[simp] theorem State.ctl_errorEntry (c : ErrorCode) : (s.errorEntry c).ctl = s.ctl := rfl
@[simp] theorem State.status_errorEntry (c : ErrorCode) : (s.errorEntry c).status = s.status.failed c := rfl
@[simp] theorem State.results_errorEntry (c : ErrorCode) : (s.errorEntry c).results = s.results := rfl
@[simp] theorem State.bfm_errorEntry (c : ErrorCode) : (s.errorEntry c).bfm = s.bfm := rfl
@[simp] theorem State.cwm_errorEntry (c : ErrorCode) : (s.errorEntry c).cwm = s.cwm := rfl
@[simp] theorem State.mm_errorEntry (c : ErrorCode) : (s.errorEntry c).mm = s.mm := rfl
@[simp] theorem State.eng_errorEntry (c : ErrorCode) : (s.errorEntry c).eng = .idle := rfl
@[simp] theorem State.irq_errorEntry (c : ErrorCode) : (s.errorEntry c).irq = s.ctl.ie := by simp [State.errorEntry, State.settleIrq, State.irqLevel, Status.failed]
@[simp] theorem State.config_errorEntry (c : ErrorCode) : (s.errorEntry c).config = s.config := rfl
@[simp] theorem State.inputs_errorEntry (c : ErrorCode) : (s.errorEntry c).inputs = s.inputs := rfl
@[simp] theorem State.response_errorEntry (c : ErrorCode) : (s.errorEntry c).response = s.response := rfl
@[simp] theorem State.draws_errorEntry (c : ErrorCode) : (s.errorEntry c).draws = s.draws := rfl

/-! `errorReturn` -/

@[simp] theorem State.ctl_errorReturn (w : Word) : (s.errorReturn w).ctl = s.ctl := rfl
@[simp] theorem State.status_errorReturn (w : Word) : (s.errorReturn w).status = s.status.writeOneClear w := rfl
@[simp] theorem State.results_errorReturn (w : Word) : (s.errorReturn w).results = s.results := rfl
@[simp] theorem State.bfm_errorReturn (w : Word) : (s.errorReturn w).bfm = s.bfm := rfl
@[simp] theorem State.cwm_errorReturn (w : Word) : (s.errorReturn w).cwm = s.cwm := rfl
@[simp] theorem State.mm_errorReturn (w : Word) : (s.errorReturn w).mm = s.mm := rfl
@[simp] theorem State.eng_errorReturn (w : Word) : (s.errorReturn w).eng = s.eng := rfl
@[simp] theorem State.irq_errorReturn (w : Word) : (s.errorReturn w).irq = (s.ctl.ie && (s.status.done && !w.getLsbD 1)) := rfl
@[simp] theorem State.config_errorReturn (w : Word) : (s.errorReturn w).config = s.config := rfl
@[simp] theorem State.inputs_errorReturn (w : Word) : (s.errorReturn w).inputs = s.inputs := rfl
@[simp] theorem State.response_errorReturn (w : Word) : (s.errorReturn w).response = s.response := rfl
@[simp] theorem State.draws_errorReturn (w : Word) : (s.errorReturn w).draws = s.draws := rfl

/-! `dropWrite` -/

@[simp] theorem State.ctl_dropWrite : (s.dropWrite).ctl = s.ctl := rfl
@[simp] theorem State.status_dropWrite : (s.dropWrite).status = s.status.dropped := rfl
@[simp] theorem State.results_dropWrite : (s.dropWrite).results = s.results := rfl
@[simp] theorem State.bfm_dropWrite : (s.dropWrite).bfm = s.bfm := rfl
@[simp] theorem State.cwm_dropWrite : (s.dropWrite).cwm = s.cwm := rfl
@[simp] theorem State.mm_dropWrite : (s.dropWrite).mm = s.mm := rfl
@[simp] theorem State.eng_dropWrite : (s.dropWrite).eng = s.eng := rfl
@[simp] theorem State.irq_dropWrite : (s.dropWrite).irq = s.irqLevel := rfl
@[simp] theorem State.config_dropWrite : (s.dropWrite).config = s.config := rfl
@[simp] theorem State.inputs_dropWrite : (s.dropWrite).inputs = s.inputs := rfl
@[simp] theorem State.response_dropWrite : (s.dropWrite).response = s.response := rfl
@[simp] theorem State.draws_dropWrite : (s.dropWrite).draws = s.draws := rfl

/-! `respond` -/

@[simp] theorem State.ctl_respond (r : Response) : (s.respond r).ctl = s.ctl := rfl
@[simp] theorem State.status_respond (r : Response) : (s.respond r).status = s.status := rfl
@[simp] theorem State.results_respond (r : Response) : (s.respond r).results = s.results := rfl
@[simp] theorem State.bfm_respond (r : Response) : (s.respond r).bfm = s.bfm := rfl
@[simp] theorem State.cwm_respond (r : Response) : (s.respond r).cwm = s.cwm := rfl
@[simp] theorem State.mm_respond (r : Response) : (s.respond r).mm = s.mm := rfl
@[simp] theorem State.eng_respond (r : Response) : (s.respond r).eng = s.eng := rfl
@[simp] theorem State.irq_respond (r : Response) : (s.respond r).irq = s.irqLevel := rfl
@[simp] theorem State.config_respond (r : Response) : (s.respond r).config = s.config := rfl
@[simp] theorem State.inputs_respond (r : Response) : (s.respond r).inputs = s.inputs := rfl
@[simp] theorem State.response_respond (r : Response) : (s.respond r).response = r := rfl
@[simp] theorem State.draws_respond (r : Response) : (s.respond r).draws = s.draws := rfl

/-! `draw` -/

@[simp] theorem State.ctl_draw (n : Nat) : (s.draw n).ctl = s.ctl := rfl
@[simp] theorem State.status_draw (n : Nat) : (s.draw n).status = s.status := rfl
@[simp] theorem State.results_draw (n : Nat) : (s.draw n).results = s.results := rfl
@[simp] theorem State.bfm_draw (n : Nat) : (s.draw n).bfm = s.bfm := rfl
@[simp] theorem State.cwm_draw (n : Nat) : (s.draw n).cwm = s.cwm := rfl
@[simp] theorem State.mm_draw (n : Nat) : (s.draw n).mm = s.mm := rfl
@[simp] theorem State.eng_draw (n : Nat) : (s.draw n).eng = s.eng := rfl
@[simp] theorem State.irq_draw (n : Nat) : (s.draw n).irq = s.irq := rfl
@[simp] theorem State.config_draw (n : Nat) : (s.draw n).config = s.config := rfl
@[simp] theorem State.inputs_draw (n : Nat) : (s.draw n).inputs = s.inputs := rfl
@[simp] theorem State.response_draw (n : Nat) : (s.draw n).response = s.response := rfl
@[simp] theorem State.draws_draw (n : Nat) : (s.draw n).draws = s.draws + n := rfl

/-! `resetRegisters` -/

@[simp] theorem State.ctl_resetRegisters : (s.resetRegisters).ctl = Control.reset := rfl
@[simp] theorem State.status_resetRegisters : (s.resetRegisters).status = Status.reset := rfl
@[simp] theorem State.results_resetRegisters : (s.resetRegisters).results = Results.reset := rfl
@[simp] theorem State.bfm_resetRegisters : (s.resetRegisters).bfm = s.bfm := rfl
@[simp] theorem State.cwm_resetRegisters : (s.resetRegisters).cwm = s.cwm := rfl
@[simp] theorem State.mm_resetRegisters : (s.resetRegisters).mm = s.mm := rfl
@[simp] theorem State.eng_resetRegisters : (s.resetRegisters).eng = .idle := rfl
@[simp] theorem State.irq_resetRegisters : (s.resetRegisters).irq = false := rfl
@[simp] theorem State.config_resetRegisters : (s.resetRegisters).config = s.config := rfl
@[simp] theorem State.inputs_resetRegisters : (s.resetRegisters).inputs = s.inputs := rfl
@[simp] theorem State.response_resetRegisters : (s.resetRegisters).response = s.response := rfl
@[simp] theorem State.draws_resetRegisters : (s.resetRegisters).draws = s.draws := rfl

/-! `hardReset` -/

@[simp] theorem State.ctl_hardReset : (s.hardReset).ctl = Control.reset := rfl
@[simp] theorem State.status_hardReset : (s.hardReset).status = Status.reset := rfl
@[simp] theorem State.results_hardReset : (s.hardReset).results = Results.reset := rfl
@[simp] theorem State.bfm_hardReset : (s.hardReset).bfm = [] := rfl
@[simp] theorem State.cwm_hardReset : (s.hardReset).cwm = [] := rfl
@[simp] theorem State.mm_hardReset : (s.hardReset).mm = [] := rfl
@[simp] theorem State.eng_hardReset : (s.hardReset).eng = .idle := rfl
@[simp] theorem State.irq_hardReset : (s.hardReset).irq = false := rfl
@[simp] theorem State.config_hardReset : (s.hardReset).config = s.config := rfl
@[simp] theorem State.inputs_hardReset : (s.hardReset).inputs = s.inputs := rfl
@[simp] theorem State.response_hardReset : (s.hardReset).response = .none := rfl
@[simp] theorem State.draws_hardReset : (s.hardReset).draws = s.draws := rfl

/-! The flags STATUS holds after each of its updates. -/

@[simp] theorem Status.done_accepted (st : Status) (op : BitVec 4) : (st.accepted op).done = false := rfl
@[simp] theorem Status.err_accepted (st : Status) (op : BitVec 4) : (st.accepted op).err = false := rfl
@[simp] theorem Status.werr_accepted (st : Status) (op : BitVec 4) : (st.accepted op).werr = st.werr := rfl
@[simp] theorem Status.ecode_accepted (st : Status) (op : BitVec 4) : (st.accepted op).ecode = .none := rfl
@[simp] theorem Status.lastOp_accepted (st : Status) (op : BitVec 4) : (st.accepted op).lastOp = op := rfl
@[simp] theorem Status.done_succeeded (st : Status) : st.succeeded.done = true := rfl
@[simp] theorem Status.err_succeeded (st : Status) : st.succeeded.err = false := rfl
@[simp] theorem Status.werr_succeeded (st : Status) : st.succeeded.werr = st.werr := rfl
@[simp] theorem Status.ecode_succeeded (st : Status) : st.succeeded.ecode = .none := rfl
@[simp] theorem Status.lastOp_succeeded (st : Status) : st.succeeded.lastOp = st.lastOp := rfl
@[simp] theorem Status.done_failed (st : Status) (c : ErrorCode) : (st.failed c).done = true := rfl
@[simp] theorem Status.err_failed (st : Status) (c : ErrorCode) : (st.failed c).err = true := rfl
@[simp] theorem Status.werr_failed (st : Status) (c : ErrorCode) : (st.failed c).werr = st.werr := rfl
@[simp] theorem Status.ecode_failed (st : Status) (c : ErrorCode) : (st.failed c).ecode = c := rfl
@[simp] theorem Status.lastOp_failed (st : Status) (c : ErrorCode) : (st.failed c).lastOp = st.lastOp := rfl
@[simp] theorem Status.done_dropped (st : Status) : st.dropped.done = st.done := rfl
@[simp] theorem Status.err_dropped (st : Status) : st.dropped.err = st.err := rfl
@[simp] theorem Status.werr_dropped (st : Status) : st.dropped.werr = true := rfl
@[simp] theorem Status.ecode_dropped (st : Status) : st.dropped.ecode = st.ecode := rfl
@[simp] theorem Status.lastOp_dropped (st : Status) : st.dropped.lastOp = st.lastOp := rfl

/-! BUSY and IRQ. -/

theorem State.busy_eq_false_iff : s.busy = false ↔ s.eng = .idle := by
  unfold State.busy
  cases s.eng <;> simp [EngineState.busy]

theorem State.busy_eq_true_iff : s.busy = true ↔ ∃ op, s.eng = .pending op := by
  unfold State.busy
  cases s.eng <;> simp [EngineState.busy]

/-- IRQ settled twice is IRQ settled once. -/
@[simp] theorem State.settleIrq_settleIrq : s.settleIrq.settleIrq = s.settleIrq := rfl

@[simp] theorem State.irqLevel_settleIrq : s.settleIrq.irqLevel = s.irqLevel := rfl

end Sys2Proof.Machine
end

