-- ==== Sys2Proof/Laws/Ops.lean ====
section
/-! SUPPORT. What the shared operations over commands can do: checks, completion, aborts and resets. -/

namespace Sys2Proof.Machine

/-! Checks. -/

@[simp] theorem failIf_true (c : ErrorCode) : failIf true c = .error (.raise c) := rfl
@[simp] theorem failIf_false (c : ErrorCode) : failIf false c = .ok () := rfl

@[simp] theorem ok_bind {α β : Type} (a : α) (f : α → Except Stop β) : (Except.ok a >>= f) = f a := rfl
@[simp] theorem error_bind {α β : Type} (e : Stop) (f : α → Except Stop β) :
    ((Except.error e : Except Stop α) >>= f) = .error e := rfl

/-- A check and what follows it, as a choice. -/
theorem failIf_bind {β : Type} (cond : Bool) (c : ErrorCode) (f : Unit → Except Stop β) :
    (failIf cond c >>= f) = if cond then .error (.raise c) else f () := by
  cases cond <;> rfl

/-- A sequence that succeeds succeeds in both parts. -/
theorem bind_eq_ok {α β : Type} {x : Except Stop α} {f : α → Except Stop β} {b : β} :
    (x >>= f) = .ok b ↔ ∃ a, x = .ok a ∧ f a = .ok b := by
  cases x <;> simp

/-- A sequence that stops stops in one of its parts. -/
theorem bind_eq_error {α β : Type} {x : Except Stop α} {f : α → Except Stop β} {e : Stop} :
    (x >>= f) = .error e ↔ x = .error e ∨ ∃ a, x = .ok a ∧ f a = .error e := by
  cases x <;> simp

@[simp] theorem orMalformed_some {α : Type} (a : α) : orMalformed (some a) = .ok a := rfl
@[simp] theorem orMalformed_none {α : Type} :
    orMalformed (none : Option α) = .error (.raise .malformedTable) := rfl

/-! Completion. -/

@[simp] theorem completeCommand_ok (s s' : State) : completeCommand s (.ok s') = .next s'.completeOk := rfl
@[simp] theorem completeCommand_raise (s : State) (c : ErrorCode) :
    completeCommand s (.error (.raise c)) = .next (s.errorEntry c) := rfl
@[simp] theorem completeCommand_modelFault (s : State) (f : Fault) :
    completeCommand s (.error (.modelFault f)) = .fault f := rfl

/-- A completed command either wrote and reports success, or wrote nothing and reports its error. -/
theorem completeCommand_next {s t : State} {r : Except Stop State} (h : completeCommand s r = .next t) :
    (∃ s', r = .ok s' ∧ t = s'.completeOk) ∨ (∃ c, r = .error (.raise c) ∧ t = s.errorEntry c) := by
  match r, h with
  | .ok s', h => exact .inl ⟨s', rfl, by cases h; rfl⟩
  | .error (.raise c), h => exact .inr ⟨c, rfl, by cases h; rfl⟩
  | .error (.modelFault f), h => cases h

theorem completeCommand_fault {s : State} {r : Except Stop State} {f : Fault}
    (h : completeCommand s r = .fault f) : r = .error (.modelFault f) := by
  match r, h with
  | .ok s', h => cases h
  | .error (.raise c), h => cases h
  | .error (.modelFault g), h => cases h; rfl

theorem completeCommand_ne_refused (s : State) (r : Except Stop State) (e : Refusal) :
    completeCommand s r ≠ .refused e := by
  match r with
  | .ok s' => simp
  | .error (.raise c) => simp
  | .error (.modelFault g) => simp

/-- The state after an error is the one claims speak of. -/
theorem errorEntry_eq_errorReported (s : State) (c : ErrorCode) : s.errorEntry c = errorReported s c := by
  simp [State.errorEntry, State.settleIrq, State.irqLevel, Status.failed, errorReported]

/-! `onNext`. -/

@[simp] theorem onNext_next (f : State → State) (s : State) : onNext f (.next s) = .next (f s) := rfl
@[simp] theorem onNext_fault (f : State → State) (e : Fault) : onNext f (.fault e) = .fault e := rfl
@[simp] theorem onNext_refused (f : State → State) (e : Refusal) : onNext f (.refused e) = .refused e := rfl

theorem onNext_eq_next {f : State → State} {o : Host.Outcome State Fault Refusal} {t : State} :
    onNext f o = .next t ↔ ∃ s, o = .next s ∧ f s = t := by
  cases o <;> simp

/-! Aborts. -/

@[simp] theorem State.ctl_abortPending (s : State) : s.abortPending.ctl = s.ctl := by
  unfold State.abortPending; split <;> rfl
@[simp] theorem State.bfm_abortPending (s : State) : s.abortPending.bfm = s.bfm := by
  unfold State.abortPending; split <;> rfl
@[simp] theorem State.config_abortPending (s : State) : s.abortPending.config = s.config := by
  unfold State.abortPending; split <;> rfl
@[simp] theorem State.inputs_abortPending (s : State) : s.abortPending.inputs = s.inputs := by
  unfold State.abortPending; split <;> rfl
@[simp] theorem State.response_abortPending (s : State) : s.abortPending.response = s.response := by
  unfold State.abortPending; split <;> rfl

theorem anyBytes_wf (d n : Nat) : (anyBytes d n).wf := Memory.fill_wf 0 n _
theorem anyBytes_below (d n : Nat) : (anyBytes d n).below n := Memory.fill_below n _
theorem read_anyBytes (d n k : Nat) :
    Memory.read (anyBytes d n) k = if k < n then some (Config.freeByte (d + k)) else none := by
  simp [anyBytes, Memory.read_fill]

/-- An abort leaves each of CWM and MM either as it was or wholly overwritten. -/
theorem State.abortPending_memories (s : State) :
    (s.abortPending.cwm = s.cwm ∨ ∃ d, s.abortPending.cwm = anyBytes d s.config.nCw) ∧
    (s.abortPending.mm = s.mm ∨ ∃ d, s.abortPending.mm = anyBytes d mmBytes) := by
  unfold State.abortPending
  split
  · exact ⟨.inl rfl, .inl rfl⟩
  · exact ⟨.inr ⟨_, rfl⟩, .inl rfl⟩
  · exact ⟨.inr ⟨_, rfl⟩, .inl rfl⟩
  · exact ⟨.inl rfl, .inr ⟨_, rfl⟩⟩
  · exact ⟨.inr ⟨_, rfl⟩, .inr ⟨_, rfl⟩⟩

theorem State.abortPending_idle {s : State} (h : s.eng = .idle) : s.abortPending = s := by
  simp [State.abortPending, h]

end Sys2Proof.Machine
end

