-- ==== Sys2Proof/Laws/Operands.lean ====
section
/-! SUPPORT. What reading and checking the operands of a command can answer. -/

namespace Sys2Proof.Machine

/-! Words, bytes and entries. -/

/-- A word is the word of its four bytes. -/
@[simp] theorem littleEndian_bytesOfWord (w : Word) : littleEndian (bytesOfWord 4 w) = w := by
  apply BitVec.eq_of_getLsbD_eq
  intro i hi
  have : i = 0 ∨ i = 1 ∨ i = 2 ∨ i = 3 ∨ i = 4 ∨ i = 5 ∨ i = 6 ∨ i = 7 ∨ i = 8 ∨ i = 9 ∨ i = 10 ∨ i = 11 ∨
      i = 12 ∨ i = 13 ∨ i = 14 ∨ i = 15 ∨ i = 16 ∨ i = 17 ∨ i = 18 ∨ i = 19 ∨ i = 20 ∨ i = 21 ∨ i = 22 ∨
      i = 23 ∨ i = 24 ∨ i = 25 ∨ i = 26 ∨ i = 27 ∨ i = 28 ∨ i = 29 ∨ i = 30 ∨ i = 31 := by omega
  rcases this with rfl|rfl|rfl|rfl|rfl|rfl|rfl|rfl|rfl|rfl|rfl|rfl|rfl|rfl|rfl|rfl|rfl|rfl|rfl|rfl|rfl|rfl|rfl|
    rfl|rfl|rfl|rfl|rfl|rfl|rfl|rfl|rfl <;>
    simp [littleEndian, bytesOfWord, List.range_succ]

@[simp] theorem bytesOfWord_length (n : Nat) (w : Word) : (bytesOfWord n w).length = n := by
  simp [bytesOfWord]

@[simp] theorem entryOfWord_wordOfEntry (e : Entry) : entryOfWord (wordOfEntry e) = e := by
  obtain ⟨v, w⟩ := e
  simp only [entryOfWord, wordOfEntry, Entry.mk.injEq]
  constructor
  · ext i hi
    rw [BitVec.getElem_extractLsb', Nat.zero_add]
    show BitVec.getLsbD (w := 3 + 5 + 24) (0#3 ++ w ++ v) i = _
    rw [BitVec.getLsbD_append, if_pos hi, BitVec.getLsbD_eq_getElem hi]
  · ext i hi
    rw [BitVec.getElem_extractLsb']
    show BitVec.getLsbD (w := 3 + 5 + 24) (0#3 ++ w ++ v) (24 + i) = _
    rw [BitVec.getLsbD_append, if_neg (by omega), Nat.add_sub_cancel_left, BitVec.getLsbD_append, if_pos hi,
      BitVec.getLsbD_eq_getElem hi]

theorem bytesOfWord_getElem (n i : Nat) (w : Word) (h : i < (bytesOfWord n w).length) :
    (bytesOfWord n w)[i] = w.extractLsb' (8 * i) 8 := by
  simp [bytesOfWord]

theorem littleEndian_cons (b : Byte) (bs : List Byte) :
    littleEndian (b :: bs) = (littleEndian bs <<< 8) ||| b.setWidth 32 := rfl

/-- Byte `i` of a bus word is byte `i` of the list (R65). -/
theorem littleEndian_extract {bs : List Byte} (h : bs.length ≤ 4) (i : Nat) (hi : i < bs.length) :
    (littleEndian bs).extractLsb' (8 * i) 8 = bs[i] := by
  induction bs generalizing i with
  | nil => simp at hi
  | cons b bs ih =>
    rw [littleEndian_cons]
    have hl : bs.length ≤ 3 := by simp at h; omega
    cases i with
    | zero =>
      ext j hj
      simp [BitVec.getLsbD_eq_getElem, show j < 8 from hj, show j < 32 by omega]
    | succ i =>
      have hi' : i < bs.length := by simpa using hi
      rw [List.getElem_cons_succ, ← ih (by omega) i hi']
      ext j hj
      simp [show 8 * (i + 1) + j < 32 by omega, show 8 * (i + 1) + j - 8 = 8 * i + j by omega,
        show ¬ 8 * (i + 1) + j < 8 by omega, BitVec.getLsbD_of_ge b (8 * (i + 1) + j) (by omega),
        BitVec.getLsbD_eq_getElem (show 8 * i + j < 32 by omega)]

/-- The bus word of `n` bytes is below `256 ^ n`. -/
theorem littleEndian_lt {bs : List Byte} (h : bs.length ≤ 4) :
    (littleEndian bs).toNat < 256 ^ bs.length := by
  induction bs with
  | nil => simp [littleEndian]
  | cons b bs ih =>
    have hb := ih (by simp at h; omega)
    have hpow : (256 : Nat) ^ bs.length * 256 = 2 ^ (8 * bs.length + 8) := by rw [Nat.pow_add, Nat.pow_mul]
    rw [littleEndian_cons, BitVec.toNat_or, List.length_cons, Nat.pow_succ, hpow]
    apply Nat.or_lt_two_pow
    · rw [BitVec.toNat_shiftLeft, Nat.shiftLeft_eq]
      refine Nat.lt_of_le_of_lt (Nat.mod_le _ _) ?_
      rw [← hpow]
      exact Nat.mul_lt_mul_of_pos_right hb (by decide)
    · have := b.isLt
      simp only [BitVec.toNat_setWidth]
      refine Nat.lt_of_lt_of_le (show _ < 2 ^ 8 by omega) (Nat.pow_le_pow_right (by decide) (by omega))

/-- Writing and reading back an entry word clears bits 31:29 (R95). -/
theorem wordOfEntry_entryOfWord (w : Word) : wordOfEntry (entryOfWord w) = w &&& 0x1FFFFFFF#32 := by
  have hmask : (0x1FFFFFFF#32) = BitVec.ofNat 32 (2 ^ 29 - 1) := rfl
  ext i hi
  show BitVec.getLsbD (w := 3 + 5 + 24) (0#3 ++ w.extractLsb' 24 5 ++ w.extractLsb' 0 24) i = _
  rw [BitVec.getLsbD_append, BitVec.getLsbD_append]
  have hand : (w &&& 0x1FFFFFFF#32).getLsbD i = (w.getLsbD i && decide (i < 29)) := by
    rw [BitVec.getLsbD_and, hmask]
    congr 1
    rw [BitVec.getLsbD_ofNat, Nat.testBit_two_pow_sub_one]
    simp [hi]
  rw [← BitVec.getLsbD_eq_getElem, hand]
  by_cases h1 : i < 24
  · simp [h1]
    intro _
    omega
  · by_cases h2 : i - 24 < 5
    · simp [h1, h2, show 24 + (i - 24) = i by omega]
      intro _
      omega
    · simp [h1, h2]
      intro _
      omega

theorem readEntry_eq (bfm : Memory) (i : Nat) :
    readEntry bfm i =
      (readBytes .bfm bfm (4 * i) 4).bind fun bs => .ok (entryOfWord (littleEndian bs)) := rfl

theorem readEntry_error {bfm : Memory} {i : Nat} {e : Stop} (h : readEntry bfm i = .error e) :
    ∃ k, e = .modelFault (.uninitRead .bfm k) ∧ 4 * i ≤ k ∧ k < 4 * i + 4 ∧ Memory.read bfm k = none := by
  rw [readEntry_eq] at h
  cases hr : readBytes .bfm bfm (4 * i) 4 with
  | ok bs => rw [hr] at h; cases h
  | error e' =>
    rw [hr] at h
    obtain rfl : e' = e := Except.error.inj h
    obtain ⟨j, hj, he, hn, -⟩ := (readBytes_eq_error_iff _ _ _ _ _).mp hr
    exact ⟨4 * i + j, he, by omega, by omega, hn⟩

@[simp] theorem Entry.legal_iff (e : Entry) :
    e.legal = true ↔ e.width.toNat ≤ 24 ∧ e.value.toNat < 2 ^ e.width.toNat := by
  simp [Entry.legal]

theorem checkedEntriesFrom_succ (bfm : Memory) (i n : Nat) :
    checkedEntriesFrom bfm i (n + 1) =
      (readEntry bfm i >>= fun e => failIf (!e.legal) .badBitfield >>= fun _ =>
        checkedEntriesFrom bfm (i + 1) n >>= fun es => .ok (e :: es)) := rfl

/-- The check loop over entries that are all written: it gives them all, or BAD_BITFIELD. -/
theorem checkedEntriesFrom_written {bfm : Memory} {i : Nat} {es : List Entry}
    (h : ∀ j (hj : j < es.length), readEntry bfm (i + j) = .ok es[j]) :
    checkedEntriesFrom bfm i es.length =
      if es.all Entry.legal then .ok es else .error (.raise .badBitfield) := by
  induction es generalizing i with
  | nil => rfl
  | cons e es ih =>
    rw [List.length_cons, checkedEntriesFrom_succ]
    have h0 : readEntry bfm i = .ok e := h 0 (by simp)
    rw [h0, ok_bind, failIf_bind, ih (i := i + 1)]
    · cases hl : e.legal <;> simp [hl]
      split <;> rfl
    · intro j hj
      have := h (j + 1) (by simpa using hj)
      rw [List.getElem_cons_succ] at this
      rw [← this]
      congr 1
      omega

/-- The check loop that succeeds has read its entries, all legal. -/
theorem checkedEntriesFrom_ok {bfm : Memory} {i n : Nat} {es : List Entry}
    (h : checkedEntriesFrom bfm i n = .ok es) :
    es.length = n ∧ (∀ j (hj : j < es.length), readEntry bfm (i + j) = .ok es[j]) ∧ AllLegal es := by
  induction n generalizing i es with
  | zero =>
    obtain rfl : [] = es := Except.ok.inj h
    simp [AllLegal]
  | succ n ih =>
    rw [checkedEntriesFrom_succ] at h
    obtain ⟨e, he, h⟩ := bind_eq_ok.mp h
    rw [failIf_bind] at h
    split at h
    · cases h
    · rename_i hlegal
      obtain ⟨rest, hrest, h⟩ := bind_eq_ok.mp h
      obtain rfl : e :: rest = es := Except.ok.inj h
      obtain ⟨hl, hv, hall⟩ := ih hrest
      refine ⟨by simp [hl], fun j hj => ?_, fun d hd => ?_⟩
      · cases j with
        | zero => simpa using he
        | succ j =>
          rw [List.getElem_cons_succ, ← hv j (by simpa using hj)]
          congr 1
          omega
      · rcases List.mem_cons.mp hd with rfl | hd
        · simpa using hlegal
        · exact hall d hd

/-- The check loop that stops either raises BAD_BITFIELD or meets a byte of BFM nothing has written. -/
theorem checkedEntriesFrom_error {bfm : Memory} {i n : Nat} {e : Stop}
    (h : checkedEntriesFrom bfm i n = .error e) :
    e = .raise .badBitfield ∨ ∃ k, e = .modelFault (.uninitRead .bfm k) := by
  induction n generalizing i e with
  | zero => cases h
  | succ n ih =>
    rw [checkedEntriesFrom_succ] at h
    rcases bind_eq_error.mp h with h | ⟨d, -, h⟩
    · obtain ⟨k, hk, -⟩ := readEntry_error h
      exact .inr ⟨k, hk⟩
    · rw [failIf_bind] at h
      split at h
      · exact .inl (Except.error.inj h).symm
      · rcases bind_eq_error.mp h with h | ⟨_, -, h⟩
        · exact ih h
        · cases h

/-- The entries PACK and ENCODE go on with: those of BFM[0 .. C), all written and all legal. -/
theorem State.checkedEntries_ok_iff (s : State) (es : List Entry) :
    s.checkedEntries = .ok es ↔ HoldsEntries s es ∧ AllLegal es := by
  unfold State.checkedEntries
  rw [failIf_bind]
  constructor
  · intro h
    split at h
    · cases h
    · rename_i hc
      obtain ⟨hl, hv, hall⟩ := checkedEntriesFrom_ok h
      refine ⟨⟨hl, by simpa using hc, fun i hi => ?_⟩, hall⟩
      simpa using hv i hi
  · rintro ⟨⟨hl, hd, hv⟩, hall⟩
    rw [if_neg (by simpa using hd), ← hl, checkedEntriesFrom_written (by simpa using hv), if_pos]
    exact List.all_eq_true.mpr fun e he => (Entry.legal_iff e).mpr (hall e he)

/-- Written entries of which one is illegal. -/
theorem State.checkedEntries_illegal {s : State} {es : List Entry} (h : HoldsEntries s es)
    (hi : ¬ AllLegal es) : s.checkedEntries = .error (.raise .badBitfield) := by
  obtain ⟨hl, hd, hv⟩ := h
  unfold State.checkedEntries
  rw [failIf_bind, if_neg (by simpa using hd), ← hl, checkedEntriesFrom_written (by simpa using hv), if_neg]
  intro hall
  exact hi fun e he => (Entry.legal_iff e).mp (List.all_eq_true.mp hall e he)

theorem State.checkedEntries_tooMany {s : State} (h : s.config.nBf < s.entryCount) :
    s.checkedEntries = .error (.raise .badBitfield) := by
  unfold State.checkedEntries
  rw [failIf_bind, if_pos (by simpa using h)]

theorem State.checkedEntries_error {s : State} {e : Stop} (h : s.checkedEntries = .error e) :
    e = .raise .badBitfield ∨ ∃ k, e = .modelFault (.uninitRead .bfm k) := by
  unfold State.checkedEntries at h
  rw [failIf_bind] at h
  split at h
  · exact .inl (Except.error.inj h).symm
  · exact checkedEntriesFrom_error h

/-! Registers. -/

@[simp] theorem State.versionOk_iff (s : State) :
    s.versionOk = true ↔ 1 ≤ s.version ∧ s.version ≤ 40 := by simp [State.versionOk]

@[simp] theorem State.capacityOk_iff (s : State) :
    s.capacityOk = true ↔ s.capacity ≠ 0 ∧ s.capacity % 8 = 0 ∧ s.dataCount ≤ s.config.nCw := by
  simp [State.capacityOk]

theorem State.dataCount_eq (s : State) : s.dataCount = s.capacity / 8 := by
  simp [State.dataCount, Nat.shiftRight_eq_div_pow]

theorem State.capacity_lt (s : State) : s.capacity < 65536 := s.ctl.maxDataBits.isLt

theorem nCw_le (p : Params) : p.nCw ≤ 65535 := p.nCwLessOne.isLt
theorem nBf_le (p : Params) : p.nBf ≤ 65535 := p.nBfLessOne.isLt

/-! Tables. -/

/-- rsTablesOk holds and gives the record and the rows exactly when they are consistent (R142). -/
theorem rsTables_eq_some_iff (s : State) (rec : LayoutRecord) (rows : List (List Byte)) :
    rsTables s.config s.version s.level s.dataCount = some (rec, rows) ↔ RsTablesConsistent s rec rows := by
  unfold rsTables
  constructor
  · intro h
    split at h
    · cases h
    · rename_i rec' hrec
      split at h
      · cases h
      · rename_i rows' hrows
        split at h
        · rename_i hok
          obtain ⟨rfl, rfl⟩ : rec' = rec ∧ rows' = rows := by simpa using h
          simp only [rsLayoutOk, generatorOk, Bool.and_eq_true, decide_eq_true_eq, List.all_eq_true] at hok
          obtain ⟨⟨⟨⟨⟨h1, h2⟩, h3⟩, h4⟩, h5⟩, h6, h7⟩ := hok
          exact ⟨hrec, h1, h2, h3, h4, h5, hrows, h6, h7⟩
        · cases h
  · rintro ⟨hrec, h1, h2, h3, h4, h5, hrows, h6, h7⟩
    simp only [hrec, hrows]
    rw [if_pos]
    simp only [rsLayoutOk, generatorOk, Bool.and_eq_true, decide_eq_true_eq, List.all_eq_true]
    exact ⟨⟨⟨⟨⟨h1, h2⟩, h3⟩, h4⟩, h5⟩, h6, h7⟩

theorem all_take_iff (xs : List Nat) (n side : Nat) (h : n ≤ xs.length) :
    (xs.take n).all (fun x => decide (x < side)) = true ↔
      ∀ p, 1 ≤ p → p ≤ n → xs.getD (p - 1) 0 < side := by
  rw [List.all_eq_true]
  constructor
  · intro hall p h1 h2
    have hp : p - 1 < xs.length := by omega
    rw [List.getD_eq_getElem _ _ hp]
    have hm : xs[p - 1] ∈ xs.take n := List.mem_take_iff_getElem.mpr ⟨p - 1, by omega, rfl⟩
    simpa using hall _ hm
  · intro hall x hx
    obtain ⟨i, hi, rfl⟩ := List.mem_take_iff_getElem.mp hx
    have := hall (i + 1) (by omega) (by omega)
    rw [Nat.add_sub_cancel, List.getD_eq_getElem _ _ (by omega)] at this
    simpa using this

/-- placeTablesOk holds and gives the record exactly when it is consistent (R172). -/
theorem placeTables_eq_some_iff (s : State) (rec : LayoutRecord) :
    placeTables s.config s.version s.level = some rec ↔ PlaceTablesConsistent s rec := by
  unfold placeTables
  constructor
  · intro h
    split at h
    · cases h
    · rename_i rec' hrec
      split at h
      · rename_i hok
        obtain rfl : rec' = rec := by simpa using h
        simp only [placeLayoutOk, Bool.and_eq_true, decide_eq_true_eq] at hok
        obtain ⟨⟨⟨⟨⟨⟨⟨h1, h2⟩, h3⟩, h4⟩, h5⟩, h6⟩, h7⟩, h8⟩ := hok
        refine ⟨hrec, h1, h2, h3, h4, h5, h6, fun p hp1 hp2 => ⟨?_, ?_⟩⟩
        · exact (all_take_iff _ _ _ h4).mp h7 p hp1 hp2
        · exact (all_take_iff _ _ _ h5).mp h8 p hp1 hp2
      · cases h
  · rintro ⟨hrec, h1, h2, h3, h4, h5, h6, h7⟩
    simp only [hrec]
    rw [if_pos]
    simp only [placeLayoutOk, Bool.and_eq_true, decide_eq_true_eq]
    exact ⟨⟨⟨⟨⟨⟨⟨h1, h2⟩, h3⟩, h4⟩, h5⟩, h6⟩,
      (all_take_iff _ _ _ h4).mpr fun p a b => (h7 p a b).1⟩,
      (all_take_iff _ _ _ h5).mpr fun p a b => (h7 p a b).2⟩

end Sys2Proof.Machine
end

