-- ==== Sys2Proof/Laws/Pack.lean ====
section
/-! SUPPORT. What the parts of PACK give, bit by bit and byte by byte, and what the command can answer. -/

namespace Sys2Proof.Machine

/-! The bit stream. -/

@[simp] theorem bitsMsbFirst_length (w v : Nat) : (bitsMsbFirst w v).length = w := by
  induction w with
  | zero => rfl
  | succ w ih => simp [bitsMsbFirst, ih]

theorem bitsMsbFirst_getElem (w v j : Nat) (h : j < (bitsMsbFirst w v).length) :
    (bitsMsbFirst w v)[j] = v.testBit (w - 1 - j) := by
  induction w generalizing j with
  | zero => simp [bitsMsbFirst] at h
  | succ w ih =>
    cases j with
    | zero => simp [bitsMsbFirst]
    | succ j =>
      simp only [bitsMsbFirst, List.getElem_cons_succ]
      rw [ih]
      congr 1
      omega

@[simp] theorem Entry.bits_length (e : Entry) : e.bits.length = e.width.toNat := bitsMsbFirst_length _ _

@[simp] theorem totalDataBits_nil : totalDataBits [] = 0 := rfl

@[simp] theorem totalDataBits_cons (e : Entry) (es : List Entry) :
    totalDataBits (e :: es) = e.width.toNat + totalDataBits es := by
  simp [totalDataBits]

@[simp] theorem totalDataBits_append (xs ys : List Entry) :
    totalDataBits (xs ++ ys) = totalDataBits xs + totalDataBits ys := by
  simp [totalDataBits]

@[simp] theorem bitStream_nil : bitStream [] = [] := rfl

@[simp] theorem bitStream_cons (e : Entry) (es : List Entry) :
    bitStream (e :: es) = e.bits ++ bitStream es := rfl

@[simp] theorem bitStream_append (xs ys : List Entry) :
    bitStream (xs ++ ys) = bitStream xs ++ bitStream ys := by
  simp [bitStream]

/-- The stream has T bits (R113). -/
@[simp] theorem bitStream_length (es : List Entry) : (bitStream es).length = totalDataBits es := by
  induction es with
  | nil => rfl
  | cons e es ih => simp [ih]

/-! Codewords. -/

/-- Bit `7 - b` of a packed byte is bit `b` of its bits. -/
theorem byteOfBits_getLsbD (bits : List Bool) (b : Nat) (hb : b < 8) :
    (byteOfBits bits).getLsbD (7 - b) = bits.getD b false := by
  have key : ∀ b0 b1 b2 b3 b4 b5 b6 b7 : Bool,
      let byte := BitVec.ofNat 8 (b0.toNat <<< 7 + (b1.toNat <<< 6 + (b2.toNat <<< 5 + (b3.toNat <<< 4 +
        (b4.toNat <<< 3 + (b5.toNat <<< 2 + (b6.toNat <<< 1 + (b7.toNat <<< 0 + 0))))))))
      byte.getLsbD 7 = b0 ∧ byte.getLsbD 6 = b1 ∧ byte.getLsbD 5 = b2 ∧ byte.getLsbD 4 = b3 ∧
        byte.getLsbD 3 = b4 ∧ byte.getLsbD 2 = b5 ∧ byte.getLsbD 1 = b6 ∧ byte.getLsbD 0 = b7 := by
    decide
  obtain ⟨h0, h1, h2, h3, h4, h5, h6, h7⟩ :=
    key (bits.getD 0 false) (bits.getD 1 false) (bits.getD 2 false) (bits.getD 3 false)
      (bits.getD 4 false) (bits.getD 5 false) (bits.getD 6 false) (bits.getD 7 false)
  have : b = 0 ∨ b = 1 ∨ b = 2 ∨ b = 3 ∨ b = 4 ∨ b = 5 ∨ b = 6 ∨ b = 7 := by omega
  rcases this with rfl | rfl | rfl | rfl | rfl | rfl | rfl | rfl
  · exact h0
  · exact h1
  · exact h2
  · exact h3
  · exact h4
  · exact h5
  · exact h6
  · exact h7

@[simp] theorem codewordsFrom_length (k : Nat) (bits : List Bool) : (codewordsFrom k bits).length = k := by
  induction k generalizing bits with
  | zero => rfl
  | succ k ih => simp [codewordsFrom, ih]

/-- Bit `7 - b` of codeword `q` is bit `8*q + b` of the stream, 0 past its end (R114). -/
theorem codewordsFrom_getLsbD (k : Nat) (bits : List Bool) (q b : Nat) (hq : q < (codewordsFrom k bits).length)
    (hb : b < 8) : ((codewordsFrom k bits)[q]).getLsbD (7 - b) = bits.getD (8 * q + b) false := by
  induction k generalizing bits q with
  | zero => simp at hq
  | succ k ih =>
    cases q with
    | zero =>
      simp only [codewordsFrom, List.getElem_cons_zero, Nat.mul_zero, Nat.zero_add]
      rw [byteOfBits_getLsbD _ b hb]
      simp [hb]
    | succ q =>
      simp only [codewordsFrom, List.getElem_cons_succ]
      rw [ih _ _ (by simpa using hq)]
      simp only [List.getD_eq_getElem?_getD, List.getElem?_drop]
      congr 2
      omega

theorem toCodewords_length (bits : List Bool) : (toCodewords bits).length = (bits.length + 7) / 8 := by
  simp [toCodewords]

@[simp] theorem padCodewords_length (m : Nat) : (padCodewords m).length = m := by simp [padCodewords]

/-- The terminator fills the stream to at most the capacity (R112). -/
theorem totalDataBits_add_terminatorWidth_le {t m : Nat} (h : t ≤ m) : t + terminatorWidth t m ≤ m := by
  unfold terminatorWidth
  split
  · omega
  · split <;> omega

theorem terminatorWidth_le (t m : Nat) : terminatorWidth t m ≤ 4 := by
  unfold terminatorWidth
  split
  · omega
  · split <;> omega

theorem packedStream_length (es : List Entry) (m : Nat) :
    (packedStream es m).length = (totalDataBits es + terminatorWidth (totalDataBits es) m + 7) / 8 := by
  simp [packedStream, toCodewords_length, zeroBits]

/-- The pad count of R110 is never negative: there are exactly D data codewords. -/
theorem dataCodewords_length {es : List Entry} {m : Nat} (hm : m % 8 = 0) (hfit : totalDataBits es ≤ m) :
    (dataCodewords es m).length = m / 8 := by
  have := totalDataBits_add_terminatorWidth_le hfit
  simp only [dataCodewords, List.length_append, padCodewords_length, packedStream_length,
    Nat.shiftRight_eq_div_pow]
  omega

/-- A packed codeword's bits: the stream, then the terminator and the fill, all zero (R113, R114). -/
theorem dataCodewords_getLsbD_stream {es : List Entry} {m q b : Nat} (hq : q < (packedStream es m).length)
    (hq' : q < (dataCodewords es m).length) (hb : b < 8) :
    ((dataCodewords es m)[q]).getLsbD (7 - b) = (bitStream es).getD (8 * q + b) false := by
  have h1 : (dataCodewords es m)[q] = (packedStream es m)[q] := by
    simp only [dataCodewords]
    exact List.getElem_append_left hq
  rw [h1]
  refine (codewordsFrom_getLsbD _ _ q b hq hb).trans ?_
  simp only [List.getD_eq_getElem?_getD, List.getElem?_append, zeroBits, List.getElem?_replicate]
  split
  · rfl
  · rename_i h
    rw [List.getElem?_eq_none (by omega)]
    split <;> rfl

/-- A pad codeword (R115). -/
theorem dataCodewords_getElem_pad {es : List Entry} {m q : Nat} (hq : (packedStream es m).length ≤ q)
    (hq' : q < (dataCodewords es m).length) :
    (dataCodewords es m)[q] = padByte (q - (packedStream es m).length) := by
  simp only [dataCodewords] at hq' ⊢
  rw [List.getElem_append_right hq]
  simp [padCodewords]

/-! The command. -/

/-- PACK once its entries are read: the checks left, in their order, then the writes (R110, R229). -/
theorem packResult_of_entries {s : State} {es : List Entry} (h : s.checkedEntries = .ok es) :
    packResult s =
      if totalDataBits es = 0 then .error (.raise .emptyData)
      else if s.capacityOk = false then .error (.raise .badCapacity)
      else if s.capacity < totalDataBits es then .error (.raise .capacityOverflow)
      else .ok (packWrites s es) := by
  simp only [packResult, h, ok_bind, failIf_bind, decide_eq_true_eq, Bool.not_eq_true', gt_iff_lt]
  rfl

theorem packResult_of_error {s : State} {e : Stop} (h : s.checkedEntries = .error e) :
    packResult s = .error e := by
  simp [packResult, h]

/-- PACK succeeds exactly when it is ready. -/
theorem packResult_ok_iff (s s' : State) :
    packResult s = .ok s' ↔ ∃ es, PackReady s es ∧ s' = packWrites s es := by
  constructor
  · intro h
    cases hc : s.checkedEntries with
    | error e => rw [packResult_of_error hc] at h; cases h
    | ok es =>
      rw [packResult_of_entries hc] at h
      split at h
      · cases h
      · split at h
        · cases h
        · split at h
          · cases h
          · rename_i h1 h2 h3
            obtain ⟨he, hl⟩ := (State.checkedEntries_ok_iff s es).mp hc
            obtain ⟨c1, c2, c3⟩ := (State.capacityOk_iff s).mp (by simpa using h2)
            exact ⟨es, ⟨he, hl, by omega, by omega, c2, c3, by omega⟩, (Except.ok.inj h).symm⟩
  · rintro ⟨es, ⟨he, hl, h1, c1, c2, c3, h3⟩, rfl⟩
    have hc := (State.checkedEntries_ok_iff s es).mpr ⟨he, hl⟩
    rw [packResult_of_entries hc, if_neg (by omega), if_neg, if_neg (by omega)]
    have := (State.capacityOk_iff s).mpr ⟨by omega, c2, c3⟩
    simp [this]

/-- PACK meets no model fault but an unwritten BitField entry. -/
theorem packResult_modelFault {s : State} {f : Fault} (h : packResult s = .error (.modelFault f)) :
    s.checkedEntries = .error (.modelFault f) := by
  cases hc : s.checkedEntries with
  | error e => rw [packResult_of_error hc] at h; exact congrArg _ (Except.error.inj h)
  | ok es =>
    rw [packResult_of_entries hc] at h
    split at h
    · cases h
    · split at h
      · cases h
      · split at h <;> cases h

@[simp] theorem packWrites_ctl (s : State) (es : List Entry) : (packWrites s es).ctl = s.ctl := rfl
@[simp] theorem packWrites_status (s : State) (es : List Entry) : (packWrites s es).status = s.status := rfl
@[simp] theorem packWrites_bfm (s : State) (es : List Entry) : (packWrites s es).bfm = s.bfm := rfl
@[simp] theorem packWrites_mm (s : State) (es : List Entry) : (packWrites s es).mm = s.mm := rfl
@[simp] theorem packWrites_eng (s : State) (es : List Entry) : (packWrites s es).eng = s.eng := rfl
@[simp] theorem packWrites_config (s : State) (es : List Entry) : (packWrites s es).config = s.config := rfl
@[simp] theorem packWrites_inputs (s : State) (es : List Entry) : (packWrites s es).inputs = s.inputs := rfl
@[simp] theorem packWrites_response (s : State) (es : List Entry) :
    (packWrites s es).response = s.response := rfl
@[simp] theorem packWrites_draws (s : State) (es : List Entry) : (packWrites s es).draws = s.draws := rfl

end Sys2Proof.Machine
end

