-- ==== Sys2Proof/Laws/Place.lean ====
section
/-! SUPPORT. The order and the values of PLACE's writes, and what the command can answer. -/

namespace Sys2Proof.Machine

/-! The writes in order: write number `t` of the codeword walk belongs to codeword `t / 8` and takes its bit
`t % 8` to position `8 * (t / 8) + 8 - t % 8` (R174, R175). -/

@[simp] theorem codewordCells_length (rec : LayoutRecord) (side i j : Nat) (c : Byte) :
    (codewordCells rec side i j c).length = j := by
  induction j generalizing c with
  | zero => rfl
  | succ j ih => simp [codewordCells, ih]

theorem codewordCells_getElem (rec : LayoutRecord) (side i j : Nat) (c : Byte) (n : Nat)
    (h : n < (codewordCells rec side i j c).length) :
    (codewordCells rec side i j c)[n] =
      (cellIndex rec side (8 * i + (j - n)), cellValue rec (c.getLsbD n) (8 * i + (j - n))) := by
  induction j generalizing c n with
  | zero => simp at h
  | succ j ih =>
    cases n with
    | zero => simp [codewordCells, Nat.shiftLeft_eq, Nat.mul_comm]
    | succ n =>
      simp only [codewordCells, List.getElem_cons_succ]
      rw [ih]
      simp [BitVec.getLsbD_ushiftRight, Nat.add_comm 1 n, Nat.add_sub_add_right]

@[simp] theorem codewordsCells_length (rec : LayoutRecord) (side i : Nat) (cs : List Byte) :
    (codewordsCells rec side i cs).length = 8 * cs.length := by
  induction cs generalizing i with
  | nil => rfl
  | cons c cs ih => simp [codewordsCells, ih]; omega

theorem codewordsCells_getElem (rec : LayoutRecord) (side i : Nat) (cs : List Byte) (t : Nat)
    (h : t < (codewordsCells rec side i cs).length) (hq : t / 8 < cs.length) :
    (codewordsCells rec side i cs)[t] =
      (cellIndex rec side (8 * (i + t / 8) + (8 - t % 8)),
        cellValue rec ((cs[t / 8]).getLsbD (t % 8)) (8 * (i + t / 8) + (8 - t % 8))) := by
  induction cs generalizing i t with
  | nil => simp at hq
  | cons c cs ih =>
    by_cases ht : t < 8
    · have h0 : t / 8 = 0 := by omega
      have h1 : t % 8 = t := by omega
      simp only [codewordsCells]
      rw [List.getElem_append_left (by simpa using ht), codewordCells_getElem]
      simp [h0, h1]
    · have h0 : t / 8 = (t - 8) / 8 + 1 := by omega
      have h1 : t % 8 = (t - 8) % 8 := by omega
      simp only [codewordsCells]
      rw [List.getElem_append_right (by simp; omega)]
      simp only [codewordCells_length]
      rw [ih (i + 1) (t - 8) _ (by simp at hq; omega)]
      simp only [h0, h1, List.getElem_cons_succ, Nat.add_assoc, Nat.add_comm 1]

@[simp] theorem remainderCells_length (rec : LayoutRecord) (side : Nat) :
    (remainderCells rec side).length = rec.remainderBitCount := by simp [remainderCells]

theorem remainderCells_getElem (rec : LayoutRecord) (side k : Nat)
    (h : k < (remainderCells rec side).length) :
    (remainderCells rec side)[k] =
      (cellIndex rec side (8 * totalCodewords rec + (k + 1)),
        cellValue rec true (8 * totalCodewords rec + (k + 1))) := by
  simp [remainderCells, Nat.shiftLeft_eq, Nat.mul_comm]

/-- All of PLACE's writes after the clear, in order. -/
def placeCells (rec : LayoutRecord) (side : Nat) (cs : List Byte) : List Host.Cell :=
  codewordsCells rec side 0 cs ++ remainderCells rec side

/-- The position index that write number `t` serves (R174, R177). -/
def placePosition (n t : Nat) : Nat := if t < 8 * n then 8 * (t / 8) + (8 - t % 8) else t + 1

theorem placePosition_placeRank (n p : Nat) (h : 1 ≤ p) : placePosition n (placeRank n p) = p := by
  unfold placePosition placeRank
  split <;> split <;> omega

theorem placeRank_lt {n r p : Nat} (h : 1 ≤ p) (hp : p ≤ 8 * n + r) : placeRank n p < 8 * n + r := by
  unfold placeRank
  split <;> omega

theorem placeRank_placePosition (n t : Nat) : placeRank n (placePosition n t) = t := by
  unfold placePosition placeRank
  split <;> split <;> omega

theorem placePosition_bounds {n r t : Nat} (h : t < 8 * n + r) :
    1 ≤ placePosition n t ∧ placePosition n t ≤ 8 * n + r := by
  unfold placePosition
  split <;> omega

/-- Write number `t` goes to the module of its position and carries that position's bit. -/
theorem placeCells_getElem {rec : LayoutRecord} {side : Nat} {cs : List Byte} (hn : cs.length = totalCodewords rec)
    (t : Nat) (h : t < (placeCells rec side cs).length) :
    (placeCells rec side cs)[t] =
      (cellIndex rec side (placePosition cs.length t),
        cellValue rec (placedBit cs (placePosition cs.length t)) (placePosition cs.length t)) := by
  have hlen : t < 8 * cs.length + rec.remainderBitCount := by simpa [placeCells] using h
  simp only [placeCells]
  by_cases ht : t < 8 * cs.length
  · rw [List.getElem_append_left (by simpa using ht), codewordsCells_getElem _ _ _ _ _ _ (by omega)]
    have hp : placePosition cs.length t = 8 * (t / 8) + (8 - t % 8) := by simp [placePosition, ht]
    have h1 : (8 * (t / 8) + (8 - t % 8) - 1) / 8 = t / 8 := by omega
    have h2 : 7 - (8 * (t / 8) + (8 - t % 8) - 1) % 8 = t % 8 := by omega
    have h3 : 8 * (t / 8) + (8 - t % 8) ≤ 8 * cs.length := by omega
    simp only [Nat.zero_add, hp, placedBit, h1, h2, h3, if_true]
    rw [List.getD_eq_getElem _ _ (by omega)]
  · rw [List.getElem_append_right (by simp; omega)]
    simp only [codewordsCells_length]
    rw [remainderCells_getElem]
    have hp : placePosition cs.length t = t + 1 := by simp [placePosition, ht]
    have h1 : 8 * totalCodewords rec + (t - 8 * cs.length + 1) = t + 1 := by omega
    have h2 : ¬ t + 1 ≤ 8 * cs.length := by omega
    simp only [hp, h1, placedBit, h2, if_false]

@[simp] theorem placeCells_length (rec : LayoutRecord) (side : Nat) (cs : List Byte) :
    (placeCells rec side cs).length = 8 * cs.length + rec.remainderBitCount := by
  simp [placeCells]

/-! The matrix. -/

theorem builtMatrix_eq (rec : LayoutRecord) (side : Nat) (cs : List Byte) :
    builtMatrix rec side cs = Memory.writeCells clearedMatrix (placeCells rec side cs) := rfl

theorem clearedMatrix_wf : clearedMatrix.wf := Memory.fill_wf 0 _ _

theorem builtMatrix_wf (rec : LayoutRecord) (side : Nat) (cs : List Byte) : (builtMatrix rec side cs).wf :=
  Memory.writeCells_wf clearedMatrix_wf _

/-- The module of position `p` when no later write names it (R176, R177, R178). -/
theorem read_builtMatrix_of_last {rec : LayoutRecord} {side : Nat} {cs : List Byte}
    (hn : cs.length = totalCodewords rec) {p : Nat} (h1 : 1 ≤ p) (h2 : p ≤ positionCount rec)
    (hlast : ∀ q, 1 ≤ q → q ≤ positionCount rec → cellIndex rec side q = cellIndex rec side p →
      placeRank cs.length q ≤ placeRank cs.length p) :
    Memory.read (builtMatrix rec side cs) (cellIndex rec side p) =
      some (cellValue rec (placedBit cs p) p) := by
  have hP : positionCount rec = 8 * cs.length + rec.remainderBitCount := by rw [positionCount, hn]
  rw [hP] at h2 hlast
  have hrank := placeRank_lt h1 h2
  have hlt : placeRank cs.length p < (placeCells rec side cs).length := by simpa using hrank
  have hget := placeCells_getElem hn _ hlt
  rw [placePosition_placeRank _ _ h1] at hget
  have hsplit : placeCells rec side cs = (placeCells rec side cs).take (placeRank cs.length p) ++
      (placeCells rec side cs)[placeRank cs.length p] ::
        (placeCells rec side cs).drop (placeRank cs.length p + 1) := by
    rw [List.getElem_cons_drop, List.take_append_drop]
  rw [builtMatrix_eq, hsplit, hget]
  refine Memory.read_writeCells_of_last (c := (cellIndex rec side p, _)) fun d hd hne => ?_
  obtain ⟨i, hi, rfl⟩ := List.mem_iff_getElem.mp hd
  rw [List.getElem_drop, placeCells_getElem hn] at hne
  have hi' : placeRank cs.length p + 1 + i < 8 * cs.length + rec.remainderBitCount := by
    simp at hi; omega
  have hb := placePosition_bounds hi'
  have := hlast _ hb.1 hb.2 hne
  rw [placeRank_placePosition] at this
  omega

/-- A byte of MM that no position names is 0 (R173, R179). -/
theorem read_builtMatrix_of_unplaced {rec : LayoutRecord} {side : Nat} {cs : List Byte}
    (hn : cs.length = totalCodewords rec) {a : Nat} (ha : a < mmBytes)
    (h : ∀ p, 1 ≤ p → p ≤ positionCount rec → cellIndex rec side p ≠ a) :
    Memory.read (builtMatrix rec side cs) a = some 0 := by
  have hP : positionCount rec = 8 * cs.length + rec.remainderBitCount := by rw [positionCount, hn]
  rw [builtMatrix_eq, Memory.read_writeCells_of_forall_ne]
  · rw [clearedMatrix, Memory.read_fill, if_pos ⟨by omega, by omega⟩]
  · intro d hd
    obtain ⟨i, hi, rfl⟩ := List.mem_iff_getElem.mp hd
    rw [placeCells_getElem hn]
    have hb := placePosition_bounds (by simpa using hi)
    exact h _ hb.1 (by rw [hP]; exact hb.2)

/-- A module inside the grid of a legal version lies inside MM (R39, R171). -/
theorem cell_lt_mmBytes {x y v : Nat} (hv : v ≤ 40) (hx : x < sideOf v) (hy : y < sideOf v) :
    x * sideOf v + y < mmBytes := by
  have hS : sideOf v ≤ 177 := by unfold sideOf; omega
  have h1 : (x + 1) * sideOf v ≤ 177 * 177 := Nat.mul_le_mul (by omega) hS
  rw [Nat.succ_mul] at h1
  unfold mmBytes
  omega

theorem builtMatrix_below {s : State} {rec : LayoutRecord} {cs : List Byte} (hv : s.version ≤ 40)
    (ht : PlaceTablesConsistent s rec) (hn : cs.length = totalCodewords rec) :
    (builtMatrix rec (sideOf s.version) cs).below mmBytes := by
  rw [builtMatrix_eq]
  refine Memory.writeCells_below (Memory.fill_below _ _) fun c hc => ?_
  obtain ⟨i, hi, rfl⟩ := List.mem_iff_getElem.mp hc
  rw [placeCells_getElem hn]
  have hb := placePosition_bounds (by simpa using hi)
  have hin := ht.inside _ hb.1 (by rw [positionCount, ← hn]; exact hb.2)
  exact cell_lt_mmBytes hv hin.1 hin.2

/-! The command. -/

theorem placeWrites_eq (s : State) (rec : LayoutRecord) :
    placeWrites s rec =
      (readBytes .cwm s.cwm 0 (totalCodewords rec) >>= fun codewords => .ok { s with
        mm := builtMatrix rec (sideOf s.version) codewords
        results := { s.results with cwCount := BitVec.ofNat 16 (totalCodewords rec) } }) := rfl

/-- PLACE as a choice: the checks in their order, then the writes (R170, R229). -/
theorem placeResult_eq (s : State) :
    placeResult s =
      if s.versionOk = false then .error (.raise .versionRange)
      else match placeTables s.config s.version s.level with
        | none => .error (.raise .malformedTable)
        | some rec => placeWrites s rec := by
  simp only [placeResult, failIf_bind, Bool.not_eq_true']
  split
  · rfl
  · cases placeTables s.config s.version s.level <;> simp

theorem placeResult_of_tables {s : State} {rec : LayoutRecord} (hv : 1 ≤ s.version ∧ s.version ≤ 40)
    (ht : PlaceTablesConsistent s rec) : placeResult s = placeWrites s rec := by
  have h1 := (State.versionOk_iff s).mpr hv
  rw [placeResult_eq, if_neg (by simp [h1]), (placeTables_eq_some_iff s rec).mpr ht]

/-- What PLACE writes when the codewords are `cs`. -/
theorem placeWrites_of_codewords {s : State} {rec : LayoutRecord} {cs : List Byte}
    (h : HoldsCodewords s cs (totalCodewords rec)) :
    placeWrites s rec = .ok { s with
      mm := builtMatrix rec (sideOf s.version) cs
      results := { s.results with cwCount := BitVec.ofNat 16 (totalCodewords rec) } } := by
  have : readBytes .cwm s.cwm 0 (totalCodewords rec) = .ok cs :=
    (readBytes_eq_ok_iff _ _ _ _ _).mpr ⟨h.count, by simpa using h.written⟩
  rw [placeWrites_eq, this, ok_bind]

/-- What PLACE can write at all: MM and CWCOUNT, from written codewords. -/
theorem placeWrites_ok {s s' : State} {rec : LayoutRecord} (h : placeWrites s rec = .ok s') :
    ∃ cs, HoldsCodewords s cs (totalCodewords rec) ∧ s' = { s with
      mm := builtMatrix rec (sideOf s.version) cs
      results := { s.results with cwCount := BitVec.ofNat 16 (totalCodewords rec) } } := by
  rw [placeWrites_eq] at h
  obtain ⟨cs, hcs, h⟩ := bind_eq_ok.mp h
  obtain ⟨hl, hv⟩ := (readBytes_eq_ok_iff _ _ _ _ _).mp hcs
  exact ⟨cs, ⟨hl, by simpa using hv⟩, (Except.ok.inj h).symm⟩

theorem placeWrites_error {s : State} {rec : LayoutRecord} {e : Stop} (h : placeWrites s rec = .error e) :
    ∃ k, k < totalCodewords rec ∧ e = .modelFault (.uninitRead .cwm k) ∧ Memory.read s.cwm k = none ∧
      ∀ j, j < k → Memory.read s.cwm j ≠ none := by
  rw [placeWrites_eq] at h
  rcases bind_eq_error.mp h with h | ⟨_, -, h⟩
  · obtain ⟨k, hk, he, hn, hf⟩ := (readBytes_eq_error_iff _ _ _ _ _).mp h
    simp only [Nat.zero_add] at he hn hf
    exact ⟨k, hk, he, hn, hf⟩
  · cases h

theorem placeResult_ok {s s' : State} (h : placeResult s = .ok s') :
    ∃ rec cs, PlaceReady s rec cs ∧ placeWrites s rec = .ok s' := by
  rw [placeResult_eq] at h
  split at h
  · cases h
  · split at h
    · cases h
    · rename_i h1 _ rec ht
      obtain ⟨v1, v2⟩ := (State.versionOk_iff s).mp (by simpa using h1)
      obtain ⟨cs, hcs, -⟩ := placeWrites_ok h
      exact ⟨rec, cs, ⟨v1, v2, (placeTables_eq_some_iff s rec).mp ht, hcs⟩, h⟩

end Sys2Proof.Machine
end

