-- ==== Sys2Proof/Laws/Rsenc.lean ====
section
/-! SUPPORT. What the parts of RSENC give, and what the command can answer. -/

namespace Sys2Proof.Machine

/-! Division. -/

@[simp] theorem xorRow_length (u row : List Byte) : (xorRow u row).length = u.length := by
  induction u generalizing row with
  | nil => rfl
  | cons a u ih => cases row <;> simp [xorRow, ih]

/-- XOR changes the bytes the row reaches and no other. -/
theorem xorRow_getElem (u row : List Byte) (k : Nat) (h : k < (xorRow u row).length) (hu : k < u.length) :
    (xorRow u row)[k] = u[k] ^^^ row.getD k 0 := by
  induction u generalizing row k with
  | nil => simp at hu
  | cons a u ih =>
    cases row with
    | nil => simp [xorRow]
    | cons g row =>
      cases k with
      | zero => simp [xorRow]
      | succ k =>
        simp only [xorRow, List.getElem_cons_succ]
        rw [ih row k _ (by simpa using hu)]
        simp

/-- A step removes one byte. -/
theorem divStep_length (t : List Byte) (r : Nat) (rows : List (List Byte)) :
    (divStep t r rows).length = t.length - 1 := by
  cases t with
  | nil => rfl
  | cons c u =>
    simp only [divStep]
    split <;> simp

@[simp] theorem divStep_zero (u : List Byte) (r : Nat) (rows : List (List Byte)) :
    divStep (0 :: u) r rows = u := by
  simp [divStep]

/-- After `n` steps the sequence is `n` bytes shorter (R144). -/
theorem divSteps_length (n : Nat) (t : List Byte) (r : Nat) (rows : List (List Byte)) :
    (divSteps n t r rows).length = t.length - n := by
  induction n generalizing t with
  | zero => rfl
  | succ n ih =>
    rw [divSteps, ih, divStep_length]
    omega

/-- The remainder has exactly r bytes (R144). -/
@[simp] theorem rsRemainder_length (data : List Byte) (r : Nat) (rows : List (List Byte)) :
    (rsRemainder data r rows).length = r := by
  simp [rsRemainder, divSteps_length]

/-! Blocks. -/

/-- The ECC codewords of the blocks, from the data codewords as a list. -/
def eccOfData (r : Nat) (rows : List (List Byte)) : (blocks : List Nat) → (data : List Byte) → List Byte
  | [], _ => []
  | b :: blocks, data =>
    rsRemainder (data.take (b - r)) r rows ++ eccOfData r rows blocks (data.drop (b - r))

theorem blocksEcc_cons (cwm : Memory) (r : Nat) (rows : List (List Byte)) (off b : Nat) (blocks : List Nat) :
    blocksEcc cwm r rows off (b :: blocks) =
      (readBytes .cwm cwm off (b - r) >>= fun data =>
        blocksEcc cwm r rows (off + (b - r)) blocks >>= fun rest => .ok (rsRemainder data r rows ++ rest)) :=
  rfl

/-- Over written data codewords every block gets its ECC. -/
theorem blocksEcc_written {cwm : Memory} {r : Nat} {rows : List (List Byte)} {off : Nat} {blocks : List Nat}
    {data : List Byte} (hlen : data.length = (blocks.map fun b => b - r).sum)
    (h : ∀ k (hk : k < data.length), Memory.read cwm (off + k) = some data[k]) :
    blocksEcc cwm r rows off blocks = .ok (eccOfData r rows blocks data) := by
  induction blocks generalizing off data with
  | nil => rfl
  | cons b blocks ih =>
    simp only [List.map_cons, List.sum_cons] at hlen
    have h1 : readBytes .cwm cwm off (b - r) = .ok (data.take (b - r)) := by
      refine (readBytes_eq_ok_iff _ _ _ _ _).mpr ⟨by simp; omega, fun i hi => ?_⟩
      rw [List.getElem_take]
      exact h i (by simp at hi; omega)
    have h2 : blocksEcc cwm r rows (off + (b - r)) blocks =
        .ok (eccOfData r rows blocks (data.drop (b - r))) := by
      refine ih (by simp; omega) fun k hk => ?_
      rw [List.getElem_drop, Nat.add_assoc]
      exact h _ _
    rw [blocksEcc_cons, h1, ok_bind, h2]
    rfl

/-- Blocks whose ECC was computed were all written. -/
theorem blocksEcc_ok {cwm : Memory} {r : Nat} {rows : List (List Byte)} {off : Nat} {blocks : List Nat}
    {ecc : List Byte} (h : blocksEcc cwm r rows off blocks = .ok ecc) :
    ∃ data : List Byte, data.length = (blocks.map fun b => b - r).sum ∧
      (∀ k (hk : k < data.length), Memory.read cwm (off + k) = some data[k]) ∧
      ecc = eccOfData r rows blocks data := by
  induction blocks generalizing off ecc with
  | nil =>
    obtain rfl : [] = ecc := Except.ok.inj h
    exact ⟨[], rfl, by simp, rfl⟩
  | cons b blocks ih =>
    rw [blocksEcc_cons] at h
    obtain ⟨d, hd, h⟩ := bind_eq_ok.mp h
    obtain ⟨rest, hrest, h⟩ := bind_eq_ok.mp h
    obtain rfl := Except.ok.inj h
    obtain ⟨dl, dv⟩ := (readBytes_eq_ok_iff _ _ _ _ _).mp hd
    obtain ⟨data, hl, hv, rfl⟩ := ih hrest
    refine ⟨d ++ data, by simp [dl, hl], fun k hk => ?_, ?_⟩
    · rw [List.getElem_append]
      split
      · rename_i hkd
        exact dv k hkd
      · rename_i hkd
        rw [← hv (k - d.length) (by simp at hk; omega)]
        congr 1
        omega
    · simp [eccOfData, ← dl]

/-- Blocks whose ECC cannot be computed: some data codeword was never written. -/
theorem blocksEcc_error {cwm : Memory} {r : Nat} {rows : List (List Byte)} {off : Nat} {blocks : List Nat}
    {e : Stop} (h : blocksEcc cwm r rows off blocks = .error e) :
    ∃ k, k < (blocks.map fun b => b - r).sum ∧ e = .modelFault (.uninitRead .cwm (off + k)) ∧
      Memory.read cwm (off + k) = none ∧ ∀ j, j < k → Memory.read cwm (off + j) ≠ none := by
  induction blocks generalizing off e with
  | nil => cases h
  | cons b blocks ih =>
    simp only [List.map_cons, List.sum_cons]
    rw [blocksEcc_cons] at h
    rcases bind_eq_error.mp h with h | ⟨d, hd, h⟩
    · obtain ⟨i, hi, he, hn, hf⟩ := (readBytes_eq_error_iff _ _ _ _ _).mp h
      exact ⟨i, by omega, he, hn, hf⟩
    · rcases bind_eq_error.mp h with h | ⟨_, -, h⟩
      · obtain ⟨k, hk, he, hn, hf⟩ := ih h
        obtain ⟨dl, dv⟩ := (readBytes_eq_ok_iff _ _ _ _ _).mp hd
        refine ⟨b - r + k, by omega, by rw [he, Nat.add_assoc], by rw [← hn, Nat.add_assoc], fun j hj => ?_⟩
        by_cases hjd : j < b - r
        · rw [dv j (by omega)]
          simp
        · have := hf (j - (b - r)) (by omega)
          rwa [show off + (b - r) + (j - (b - r)) = off + j by omega] at this
      · cases h

@[simp] theorem eccOfData_length (r : Nat) (rows : List (List Byte)) (blocks : List Nat) (data : List Byte) :
    (eccOfData r rows blocks data).length = blocks.length * r := by
  induction blocks generalizing data with
  | nil => simp [eccOfData]
  | cons b blocks ih => simp [eccOfData, ih, Nat.succ_mul, Nat.add_comm]

/-- Byte k of the ECC of block i stands at `i * r + k` (R147). -/
theorem eccOfData_getElem (r : Nat) (rows : List (List Byte)) (blocks : List Nat) (data : List Byte)
    (i k : Nat) (hi : i < blocks.length) (hk : k < r)
    (h : i * r + k < (eccOfData r rows blocks data).length) :
    (eccOfData r rows blocks data)[i * r + k] =
      (rsRemainder (blockData r blocks data i) r rows)[k]'(by simpa using hk) := by
  induction blocks generalizing data i with
  | nil => simp at hi
  | cons b blocks ih =>
    cases i with
    | zero =>
      simp only [eccOfData, Nat.zero_mul, Nat.zero_add]
      rw [List.getElem_append_left (by simpa using hk)]
      simp [blockData]
    | succ i =>
      have hidx : (i + 1) * r + k = r + (i * r + k) := by rw [Nat.succ_mul]; omega
      simp only [eccOfData, hidx]
      rw [List.getElem_append_right (by simp)]
      simp only [rsRemainder_length, Nat.add_sub_cancel_left]
      rw [ih _ i (by simpa using hi)]
      simp [blockData, List.drop_drop]

/-- When every block has more than r codewords, sum(B) = D + n*r (R148). -/
theorem totalCodewords_eq {rec : LayoutRecord}
    (h : ∀ b ∈ rec.blockOrder, rec.eccCodewordsPerBlock < b) :
    totalCodewords rec =
      totalDataCodewords rec + rec.blockOrder.length * rec.eccCodewordsPerBlock := by
  unfold totalCodewords totalDataCodewords
  generalize rec.blockOrder = blocks at h ⊢
  generalize rec.eccCodewordsPerBlock = r at h ⊢
  induction blocks with
  | nil => simp
  | cons b blocks ih =>
    have hb : r < b := h b (by simp)
    have := ih fun c hc => h c (by simp [hc])
    simp only [List.sum_cons, List.map_cons, List.length_cons, Nat.succ_mul, this]
    omega

/-! The command. -/

theorem rsencWrites_eq (s : State) (rec : LayoutRecord) (rows : List (List Byte)) :
    rsencWrites s rec rows =
      (blocksEcc s.cwm rec.eccCodewordsPerBlock rows 0 rec.blockOrder >>= fun ecc => .ok { s with
        cwm := Memory.writeBytes s.cwm s.dataCount ecc
        results := { s.results with
          dCount := BitVec.ofNat 16 s.dataCount
          cwCount := BitVec.ofNat 16
            (s.dataCount + rec.blockOrder.length * rec.eccCodewordsPerBlock)
          nBlocks := BitVec.ofNat 16 rec.blockOrder.length
          eccR := BitVec.ofNat 16 rec.eccCodewordsPerBlock } }) := rfl

/-- RSENC as a choice: the checks in their order, then the writes (R140, R229). -/
theorem rsencResult_eq (s : State) :
    rsencResult s =
      if s.versionOk = false then .error (.raise .versionRange)
      else if s.capacityOk = false then .error (.raise .badCapacity)
      else match rsTables s.config s.version s.level s.dataCount with
        | none => .error (.raise .malformedTable)
        | some tables => rsencWrites s tables.1 tables.2 := by
  simp only [rsencResult, failIf_bind, Bool.not_eq_true']
  split
  · rfl
  · split
    · rfl
    · cases rsTables s.config s.version s.level s.dataCount <;> simp

/-- RSENC gets to its writes exactly when its checks pass. -/
theorem rsencResult_of_tables {s : State} {rec : LayoutRecord} {rows : List (List Byte)}
    (hv : 1 ≤ s.version ∧ s.version ≤ 40)
    (hc : s.capacity ≠ 0 ∧ s.capacity % 8 = 0 ∧ s.dataCount ≤ s.config.nCw)
    (ht : RsTablesConsistent s rec rows) : rsencResult s = rsencWrites s rec rows := by
  have h1 := (State.versionOk_iff s).mpr hv
  have h2 := (State.capacityOk_iff s).mpr hc
  rw [rsencResult_eq, if_neg (by simp [h1]), if_neg (by simp [h2]), (rsTables_eq_some_iff s rec rows).mpr ht]

theorem rsencResult_ok {s s' : State} (h : rsencResult s = .ok s') :
    ∃ rec rows data, RsencReady s rec rows data ∧ rsencWrites s rec rows = .ok s' := by
  rw [rsencResult_eq] at h
  split at h
  · cases h
  · split at h
    · cases h
    · split at h
      · cases h
      · rename_i h1 h2 _ tables ht
        obtain ⟨rec, rows⟩ := tables
        obtain ⟨v1, v2⟩ := (State.versionOk_iff s).mp (by simpa using h1)
        obtain ⟨c1, c2, c3⟩ := (State.capacityOk_iff s).mp (by simpa using h2)
        have htab := (rsTables_eq_some_iff s rec rows).mp ht
        refine ⟨rec, rows, ?_⟩
        have h' := h
        rw [rsencWrites_eq] at h'
        obtain ⟨ecc, he, -⟩ := bind_eq_ok.mp h'
        obtain ⟨data, hl, hv, -⟩ := blocksEcc_ok he
        refine ⟨data, ⟨v1, v2, by omega, c2, c3, htab, hl.trans htab.covers, fun k hk => ?_⟩, h⟩
        simpa using hv k hk

/-- What RSENC writes when it is ready. -/
theorem rsencWrites_of_ready {s : State} {rec : LayoutRecord} {rows : List (List Byte)} {data : List Byte}
    (hl : data.length = totalDataCodewords rec)
    (hv : ∀ k (h : k < data.length), Memory.read s.cwm k = some data[k]) :
    rsencWrites s rec rows = .ok { s with
      cwm := Memory.writeBytes s.cwm s.dataCount
        (eccOfData rec.eccCodewordsPerBlock rows rec.blockOrder data)
      results := { s.results with
        dCount := BitVec.ofNat 16 s.dataCount
        cwCount := BitVec.ofNat 16
          (s.dataCount + rec.blockOrder.length * rec.eccCodewordsPerBlock)
        nBlocks := BitVec.ofNat 16 rec.blockOrder.length
        eccR := BitVec.ofNat 16 rec.eccCodewordsPerBlock } } := by
  rw [rsencWrites_eq, blocksEcc_written hl (by simpa using hv), ok_bind]

/-- What RSENC can write at all: only CWM from D on and four result registers. -/
theorem rsencWrites_ok {s s' : State} {rec : LayoutRecord} {rows : List (List Byte)}
    (h : rsencWrites s rec rows = .ok s') :
    ∃ ecc : List Byte, ecc.length = rec.blockOrder.length * rec.eccCodewordsPerBlock ∧ s' = { s with
      cwm := Memory.writeBytes s.cwm s.dataCount ecc
      results := { s.results with
        dCount := BitVec.ofNat 16 s.dataCount
        cwCount := BitVec.ofNat 16
          (s.dataCount + rec.blockOrder.length * rec.eccCodewordsPerBlock)
        nBlocks := BitVec.ofNat 16 rec.blockOrder.length
        eccR := BitVec.ofNat 16 rec.eccCodewordsPerBlock } } := by
  rw [rsencWrites_eq] at h
  obtain ⟨ecc, he, h⟩ := bind_eq_ok.mp h
  obtain ⟨data, -, -, rfl⟩ := blocksEcc_ok he
  exact ⟨_, by simp, (Except.ok.inj h).symm⟩

theorem rsencWrites_error {s : State} {rec : LayoutRecord} {rows : List (List Byte)} {e : Stop}
    (h : rsencWrites s rec rows = .error e) :
    ∃ k, k < totalDataCodewords rec ∧ e = .modelFault (.uninitRead .cwm k) ∧ Memory.read s.cwm k = none ∧
      ∀ j, j < k → Memory.read s.cwm j ≠ none := by
  rw [rsencWrites_eq] at h
  rcases bind_eq_error.mp h with h | ⟨_, -, h⟩
  · obtain ⟨k, hk, he, hn, hf⟩ := blocksEcc_error h
    simp only [Nat.zero_add] at he hn hf
    exact ⟨k, hk, he, hn, hf⟩
  · cases h

end Sys2Proof.Machine
end

