-- ==== Sys2Proof/Laws/Control.lean ====
section
/-! SUPPORT. What ENCODE can answer, and what every command leaves alone. -/

namespace Sys2Proof.Machine

/-- ENCODE's tables are consistent for both phases, and are one record (R201). -/
theorem encodeTables_eq_some_iff (s : State) (rec : LayoutRecord) (rows : List (List Byte)) :
    encodeTables s = some (rec, rows) ↔ RsTablesConsistent s rec rows ∧ PlaceTablesConsistent s rec := by
  unfold encodeTables
  constructor
  · intro h
    split at h
    · rename_i tables rec' h1 h2
      obtain rfl : tables = (rec, rows) := Option.some.inj h
      have hrs := (rsTables_eq_some_iff s rec rows).mp h1
      have hpl := (placeTables_eq_some_iff s rec').mp h2
      obtain rfl : rec = rec' := Option.some.inj (hrs.layout.symm.trans hpl.layout)
      exact ⟨hrs, hpl⟩
    · cases h
  · rintro ⟨hrs, hpl⟩
    rw [(rsTables_eq_some_iff s rec rows).mpr hrs, (placeTables_eq_some_iff s rec).mpr hpl]

/-- ENCODE once its entries are read: the checks left, in their order, then the three phases (R201, R229). -/
theorem encodeResult_of_entries {s : State} {es : List Entry} (h : s.checkedEntries = .ok es) :
    encodeResult s =
      if totalDataBits es = 0 then .error (.raise .emptyData)
      else if s.versionOk = false then .error (.raise .versionRange)
      else if s.capacityOk = false then .error (.raise .badCapacity)
      else if s.capacity < totalDataBits es then .error (.raise .capacityOverflow)
      else match encodeTables s with
        | none => .error (.raise .malformedTable)
        | some tables =>
          rsencWrites (packWrites s es) tables.1 tables.2 >>= fun s2 => placeWrites s2 tables.1 := by
  simp only [encodeResult, h, ok_bind, failIf_bind, decide_eq_true_eq, Bool.not_eq_true', gt_iff_lt]
  split
  · rfl
  · split
    · rfl
    · split
      · rfl
      · split
        · rfl
        · cases encodeTables s <;> simp

theorem encodeResult_of_error {s : State} {e : Stop} (h : s.checkedEntries = .error e) :
    encodeResult s = .error e := by
  simp [encodeResult, h]

/-- ENCODE gets to its phases only when it is ready. -/
theorem encodeResult_ok {s s' : State} (h : encodeResult s = .ok s') :
    ∃ es rec rows, EncodeReady s es rec rows ∧
      (rsencWrites (packWrites s es) rec rows >>= fun s2 => placeWrites s2 rec) = .ok s' := by
  cases hc : s.checkedEntries with
  | error e => rw [encodeResult_of_error hc] at h; cases h
  | ok es =>
    rw [encodeResult_of_entries hc] at h
    split at h
    · cases h
    · split at h
      · cases h
      · split at h
        · cases h
        · split at h
          · cases h
          · split at h
            · cases h
            · rename_i h1 h2 h3 h4 _ tables ht
              obtain ⟨rec, rows⟩ := tables
              obtain ⟨he, hl⟩ := (State.checkedEntries_ok_iff s es).mp hc
              obtain ⟨v1, v2⟩ := (State.versionOk_iff s).mp (by simpa using h2)
              obtain ⟨c1, c2, c3⟩ := (State.capacityOk_iff s).mp (by simpa using h3)
              obtain ⟨hrs, hpl⟩ := (encodeTables_eq_some_iff s rec rows).mp ht
              exact ⟨es, rec, rows,
                ⟨⟨he, hl, by omega, by omega, c2, c3, by omega⟩, v1, v2, hrs, hpl⟩, h⟩

theorem encodeResult_of_ready {s : State} {es : List Entry} {rec : LayoutRecord} {rows : List (List Byte)}
    (h : EncodeReady s es rec rows) :
    encodeResult s = (rsencWrites (packWrites s es) rec rows >>= fun s2 => placeWrites s2 rec) := by
  obtain ⟨⟨he, hl, h1, c1, c2, c3, h3⟩, v1, v2, hrs, hpl⟩ := h
  have hv := (State.versionOk_iff s).mpr ⟨v1, v2⟩
  have hcap := (State.capacityOk_iff s).mpr ⟨by omega, c2, c3⟩
  rw [encodeResult_of_entries ((State.checkedEntries_ok_iff s es).mpr ⟨he, hl⟩), if_neg (by omega),
    if_neg (by simp [hv]), if_neg (by simp [hcap]), if_neg (by omega),
    (encodeTables_eq_some_iff s rec rows).mpr ⟨hrs, hpl⟩]

/-! What the successful commands leave alone. -/

/-- The fields no engine command writes before its completion. -/
structure SameOutside (s t : State) : Prop where
  ctl : t.ctl = s.ctl
  status : t.status = s.status
  bfm : t.bfm = s.bfm
  eng : t.eng = s.eng
  irq : t.irq = s.irq
  config : t.config = s.config
  inputs : t.inputs = s.inputs
  response : t.response = s.response
  draws : t.draws = s.draws

theorem SameOutside.trans {s t u : State} (h1 : SameOutside s t) (h2 : SameOutside t u) : SameOutside s u :=
  ⟨h2.ctl.trans h1.ctl, h2.status.trans h1.status, h2.bfm.trans h1.bfm, h2.eng.trans h1.eng,
    h2.irq.trans h1.irq, h2.config.trans h1.config, h2.inputs.trans h1.inputs,
    h2.response.trans h1.response, h2.draws.trans h1.draws⟩

theorem packWrites_same (s : State) (es : List Entry) : SameOutside s (packWrites s es) :=
  ⟨rfl, rfl, rfl, rfl, rfl, rfl, rfl, rfl, rfl⟩

theorem rsencWrites_same {s t : State} {rec : LayoutRecord} {rows : List (List Byte)}
    (h : rsencWrites s rec rows = .ok t) : SameOutside s t ∧ t.mm = s.mm := by
  obtain ⟨ecc, -, rfl⟩ := rsencWrites_ok h
  exact ⟨⟨rfl, rfl, rfl, rfl, rfl, rfl, rfl, rfl, rfl⟩, rfl⟩

theorem placeWrites_same {s t : State} {rec : LayoutRecord} (h : placeWrites s rec = .ok t) :
    SameOutside s t ∧ t.cwm = s.cwm := by
  obtain ⟨cs, -, rfl⟩ := placeWrites_ok h
  exact ⟨⟨rfl, rfl, rfl, rfl, rfl, rfl, rfl, rfl, rfl⟩, rfl⟩

/-- The result an engine operation computes before completion (R205). -/
def commandResult (op : EngineOp) (s : State) : Except Stop State :=
  match op with
  | .pack => packResult s
  | .rsenc => rsencResult s
  | .place => placeResult s
  | .encode => encodeResult s

theorem exec_engine (op : EngineOp) (s : State) :
    exec op.instr s = completeCommand s (commandResult op s) := by
  cases op <;> rfl

theorem commandResult_same {op : EngineOp} {s t : State} (h : commandResult op s = .ok t) :
    SameOutside s t := by
  cases op with
  | pack =>
    obtain ⟨es, -, rfl⟩ := (packResult_ok_iff s t).mp h
    exact packWrites_same s es
  | rsenc =>
    obtain ⟨rec, rows, data, -, h⟩ := rsencResult_ok h
    exact (rsencWrites_same h).1
  | place =>
    obtain ⟨rec, cs, -, h⟩ := placeResult_ok h
    exact (placeWrites_same h).1
  | encode =>
    obtain ⟨es, rec, rows, -, h⟩ := encodeResult_ok h
    obtain ⟨s2, h2, h3⟩ := bind_eq_ok.mp h
    exact ((packWrites_same s es).trans (rsencWrites_same h2).1).trans (placeWrites_same h3).1

/-- What an engine command can do: it wrote and reports success, or it wrote nothing and reports its error. -/
theorem exec_engine_next {op : EngineOp} {s t : State} (h : exec op.instr s = .next t) :
    (∃ s', commandResult op s = .ok s' ∧ SameOutside s s' ∧ t = s'.completeOk) ∨
    (∃ c, commandResult op s = .error (.raise c) ∧ t = s.errorEntry c) := by
  rw [exec_engine] at h
  rcases completeCommand_next h with ⟨s', hr, rfl⟩ | ⟨c, hr, rfl⟩
  · exact .inl ⟨s', hr, commandResult_same hr, rfl⟩
  · exact .inr ⟨c, hr, rfl⟩

/-- PACK's writes keep RSENC's and PLACE's tables as they were. -/
theorem RsTablesConsistent.congr {s t : State} {rec : LayoutRecord} {rows : List (List Byte)}
    (h : RsTablesConsistent s rec rows) (hc : t.ctl = s.ctl) (hp : t.config = s.config) :
    RsTablesConsistent t rec rows := by
  obtain ⟨h1, h2, h3, h4, h5, h6, h7, h8, h9⟩ := h
  refine ⟨?_, h2, h3, h4, ?_, ?_, ?_, h8, h9⟩
  · simpa only [State.version, State.level, hc, hp] using h1
  · simpa only [State.dataCount, State.capacity, hc] using h5
  · simpa only [hp] using h6
  · simpa only [hp] using h7

theorem PlaceTablesConsistent.congr {s t : State} {rec : LayoutRecord} (h : PlaceTablesConsistent s rec)
    (hc : t.ctl = s.ctl) (hp : t.config = s.config) : PlaceTablesConsistent t rec := by
  obtain ⟨h1, h2, h3, h4, h5, h6, h7, h8⟩ := h
  refine ⟨?_, h2, h3, ?_, h5, h6, h7, ?_⟩
  · simpa only [State.version, State.level, hc, hp] using h1
  · simpa only [hp] using h4
  · simpa only [State.version, hc] using h8

end Sys2Proof.Machine
end

