-- ==== Sys2Proof/Laws/Bus.lean ====
section
/-! SUPPORT. What a host access reaches and what it can do, and what one turn of the machine can do. -/

namespace Sys2Proof.Machine

theorem Width.bytes_cases (w : Width) : w.bytes = 1 ∨ w.bytes = 2 ∨ w.bytes = 4 := by cases w <;> simp [Width.bytes]

/-- An access that reaches nothing is one the bus map does not take (R68). -/
theorem target_eq_none_iff (p : Params) (addr : BusAddr) (width : Width) :
    target p addr width = none ↔ ¬ LegalAccess p addr width := by
  have hb := nBf_le p
  have hc := nCw_le p
  have hw := Width.bytes_cases width
  have h32 : width = .w32 ↔ width.bytes = 4 := by cases width <;> simp [Width.bytes]
  unfold target LegalAccess mmBytes
  simp only [h32]
  generalize width.bytes = n at hw ⊢
  generalize p.nBf = nb at hb ⊢
  generalize p.nCw = nc at hc ⊢
  generalize addr.toNat = a
  (repeat' split) <;> simp only [reduceCtorEq, true_iff, false_iff, not_not] <;>
    rcases hw with rfl | rfl | rfl <;> omega

/-- A legal access reaches a word of the register page, an entry of BFM, or bytes of CWM or MM (R61 to R64). -/
theorem target_cases {p : Params} {addr : BusAddr} {width : Width} {t : Target}
    (h : target p addr width = some t) :
    (∃ r, t = .register r ∧ width = .w32 ∧ addr.toNat < 0x1000 ∧ r = registerAt addr.toNat) ∨
    (∃ i, t = .entry i ∧ width = .w32 ∧ i < p.nBf ∧ addr.toNat = 0x100000 + 4 * i) ∨
    (∃ k, t = .cwm k ∧ k + width.bytes ≤ p.nCw ∧ addr.toNat = 0x200000 + k) ∨
    (∃ k, t = .mm k ∧ k + width.bytes ≤ mmBytes ∧ addr.toNat = 0x300000 + k) := by
  unfold target at h
  simp only at h
  split at h
  · cases h
  · rename_i hal
    split at h
    · split at h
      · exact .inl ⟨_, (Option.some.inj h).symm, ‹_›, ‹_›, rfl⟩
      · cases h
    · split at h
      · split at h
        · rename_i hr hw
          refine .inr (.inl ⟨_, (Option.some.inj h).symm, hw, ?_, ?_⟩)
          · subst hw; simp only [Width.bytes] at hr; omega
          · subst hw; simp only [Width.bytes] at hr hal; omega
        · cases h
      · split at h
        · exact .inr (.inr (.inl ⟨_, (Option.some.inj h).symm, by omega, by omega⟩))
        · split at h
          · exact .inr (.inr (.inr ⟨_, (Option.some.inj h).symm, by omega, by omega⟩))
          · cases h

/-- A write to CMD: SRESET or a drop while BUSY; otherwise an acceptance, a command of the host's step, or an illegal
word (R204). -/
theorem cmdWrite_next {w : Word} {s t : State} (h : cmdWrite w s = .next t) :
    (s.busy = true ∧ t = s.softReset) ∨ (s.busy = true ∧ t = s.dropWrite) ∨
    (s.busy = false ∧ ∃ op, decode w = .ok op.instr ∧ t = (s.accept (opField w)).start op) ∨
    (s.busy = false ∧ t = (s.accept (opcode .nop)).completeOk) ∨
    (s.busy = false ∧ t = s.softReset) ∨
    (s.busy = false ∧ t = s.illegalCommand (opField w)) := by
  unfold cmdWrite at h
  split at h
  · rename_i hb
    split at h
    · exact .inl ⟨hb, by cases h; rfl⟩
    · exact .inr (.inl ⟨hb, by cases h; rfl⟩)
  · rename_i hb
    have hb : s.busy = false := by simpa using hb
    refine .inr (.inr ?_)
    split at h
    · rename_i i hi
      cases i with
      | nop =>
        refine .inr (.inl ⟨hb, ?_⟩)
        simp only [engineOp, exec, execNop, hb] at h
        cases h; rfl
      | sreset => exact .inr (.inr (.inl ⟨hb, by cases h; rfl⟩))
      | pack => exact .inl ⟨hb, .pack, hi, by cases h; rfl⟩
      | rsenc => exact .inl ⟨hb, .rsenc, hi, by cases h; rfl⟩
      | place => exact .inl ⟨hb, .place, hi, by cases h; rfl⟩
      | encode => exact .inl ⟨hb, .encode, hi, by cases h; rfl⟩
    · exact .inr (.inr (.inr ⟨hb, by cases h; rfl⟩))

/-- A write to CMD always completes: no fault and no refusal. -/
theorem cmdWrite_total (w : Word) (s : State) : ∃ t, cmdWrite w s = .next t := by
  unfold cmdWrite
  split
  · split
    · exact ⟨_, rfl⟩
    · exact ⟨_, rfl⟩
  · rename_i hb
    split
    · rename_i i hi
      cases i with
      | nop => exact ⟨_, by simp [engineOp, exec, execNop, hb]; rfl⟩
      | sreset => exact ⟨_, rfl⟩
      | pack => exact ⟨_, rfl⟩
      | rsenc => exact ⟨_, rfl⟩
      | place => exact ⟨_, rfl⟩
      | encode => exact ⟨_, rfl⟩
    · exact ⟨_, rfl⟩

/-- What a host access can do: an error response, a read, a dropped write, a write to CMD, or a write of its target
while BUSY = 0. -/
theorem hostAccess_next {a : Access} {s t : State} (h : hostAccess a s = .next t) :
    (∃ r, t = s.respond r) ∨
    (∃ addr width tg, target s.config addr width = some tg ∧ t = s.hostRead tg width.bytes) ∨
    (s.busy = true ∧ t = s.dropWrite.respond .written) ∨
    (∃ w u, cmdWrite w s = .next u ∧ t = u.respond .written) ∨
    (∃ addr width w tg, target s.config addr width = some tg ∧ s.busy = false ∧
      t = (s.writeTarget tg width.bytes w).respond .written) := by
  cases a with
  | read addr width =>
    simp only [hostAccess] at h
    split at h
    · exact .inl ⟨_, by cases h; rfl⟩
    · rename_i tg htg
      exact .inr (.inl ⟨addr, width, tg, htg, by cases h; rfl⟩)
  | write addr width w =>
    simp only [hostAccess] at h
    split at h
    · exact .inl ⟨_, by cases h; rfl⟩
    · obtain ⟨u, hu, rfl⟩ := onNext_eq_next.mp h
      exact .inr (.inr (.inr (.inl ⟨w, u, hu, rfl⟩)))
    · rename_i tg _ htg
      split at h
      · rename_i hb
        exact .inr (.inr (.inl ⟨hb, by cases h; rfl⟩))
      · rename_i hb
        exact .inr (.inr (.inr (.inr ⟨addr, width, w, tg, htg, by simpa using hb, by cases h; rfl⟩)))

/-- A host access always completes: no fault and no refusal. -/
theorem hostAccess_total (a : Access) (s : State) : ∃ t, hostAccess a s = .next t := by
  cases a with
  | read addr width => simp only [hostAccess]; split <;> exact ⟨_, rfl⟩
  | write addr width w =>
    simp only [hostAccess]
    split
    · exact ⟨_, rfl⟩
    · obtain ⟨u, hu⟩ := cmdWrite_total w s
      exact ⟨_, by rw [hu]; rfl⟩
    · split <;> exact ⟨_, rfl⟩

/-- What a step can do: the engine's turn, a host access, or the reset input, after its event is taken off the list. -/
theorem step_cases (s : State) :
    (s.inputs = [] ∧ step s = engineTurn s) ∨
    (∃ rest, s.inputs = .engine :: rest ∧ step s = engineTurn { s with inputs := rest }) ∨
    (∃ a rest, s.inputs = .access a :: rest ∧ step s = hostAccess a { s with inputs := rest }) ∨
    (∃ rest, s.inputs = .hardReset :: rest ∧ step s = .next { s with inputs := rest }.hardReset) := by
  unfold step nextTurn
  split
  · exact .inl ⟨‹_›, rfl⟩
  · exact .inr (.inl ⟨_, ‹_›, rfl⟩)
  · exact .inr (.inr (.inl ⟨_, _, ‹_›, rfl⟩))
  · exact .inr (.inr (.inr ⟨_, ‹_›, rfl⟩))

/-- What the engine's turn can do. -/
theorem engineTurn_cases (s : State) :
    (s.eng = .idle ∧ engineTurn s = .next s.settleIrq) ∨
    (∃ op, s.eng = .pending op ∧ engineTurn s = exec op.instr s) := by
  unfold engineTurn
  split
  · exact .inl ⟨‹_›, rfl⟩
  · exact .inr ⟨_, ‹_›, rfl⟩

/-! One event. -/

theorem perform_access (a : Access) (s : State) : perform (.access a) s = hostAccess a s := rfl
theorem perform_engine (s : State) : perform .engine s = engineTurn s := rfl
theorem perform_hardReset (s : State) : perform .hardReset s = .next s.hardReset := rfl

/-- A write to CMD, and the port's answer to it. -/
theorem perform_cmdWriteEvent (w : Word) (s : State) :
    perform (cmdWriteEvent w) s = onNext (fun t => t.respond .written) (cmdWrite w s) := by
  simp [cmdWriteEvent, perform_access, hostAccess, target, Width.bytes, registerAt]

/-- An aligned word of the register page (R61). -/
theorem target_register (p : Params) {addr : BusAddr} (h : addr.toNat < 0x1000) (hal : addr.toNat % 4 = 0) :
    target p addr .w32 = some (.register (registerAt addr.toNat)) := by
  simp [target, Width.bytes, h, hal]

/-- An entry of the BFM window (R62). -/
theorem target_entry {p : Params} {addr : BusAddr} {i : Nat} (h : addr.toNat = 0x100000 + 4 * i)
    (hi : i < p.nBf) : target p addr .w32 = some (.entry i) := by
  have h1 : addr.toNat % 4 = 0 := by omega
  have h2 : ¬ addr.toNat < 0x1000 := by omega
  have h3 : 0x100000 ≤ addr.toNat ∧ addr.toNat + 4 ≤ 0x100000 + 4 * p.nBf := by omega
  have h4 : (addr.toNat - 0x100000) / 4 = i := by omega
  simp only [target, Width.bytes, h1, h2, h3, h4, ne_eq, not_true_eq_false, if_false, if_true, and_self]

/-- Bytes of the CWM window (R63). -/
theorem target_cwm {p : Params} {addr : BusAddr} {width : Width} {k : Nat} (h : addr.toNat = 0x200000 + k)
    (hal : k % width.bytes = 0) (hk : k + width.bytes ≤ p.nCw) :
    target p addr width = some (.cwm k) := by
  have hb := nBf_le p
  have h1 : addr.toNat % width.bytes = 0 := by
    rcases Width.bytes_cases width with hw | hw | hw <;> rw [hw] at hal ⊢ <;> omega
  have h2 : ¬ addr.toNat < 0x1000 := by omega
  have h3 : ¬ (0x100000 ≤ addr.toNat ∧ addr.toNat + width.bytes ≤ 0x100000 + 4 * p.nBf) := by omega
  have h4 : 0x200000 ≤ addr.toNat ∧ addr.toNat + width.bytes ≤ 0x200000 + p.nCw := by omega
  have h5 : addr.toNat - 0x200000 = k := by omega
  simp only [target, h1, h2, h3, h4, h5, ne_eq, not_true_eq_false, if_false, if_true, and_self]

/-- Bytes of the MM window (R64). -/
theorem target_mm {p : Params} {addr : BusAddr} {width : Width} {k : Nat} (h : addr.toNat = 0x300000 + k)
    (hal : k % width.bytes = 0) (hk : k + width.bytes ≤ mmBytes) :
    target p addr width = some (.mm k) := by
  have hb := nBf_le p
  have hc := nCw_le p
  have h1 : addr.toNat % width.bytes = 0 := by
    rcases Width.bytes_cases width with hw | hw | hw <;> rw [hw] at hal ⊢ <;> omega
  have h2 : ¬ addr.toNat < 0x1000 := by omega
  have h3 : ¬ (0x100000 ≤ addr.toNat ∧ addr.toNat + width.bytes ≤ 0x100000 + 4 * p.nBf) := by omega
  have h4 : ¬ (0x200000 ≤ addr.toNat ∧ addr.toNat + width.bytes ≤ 0x200000 + p.nCw) := by omega
  have h5 : 0x300000 ≤ addr.toNat ∧ addr.toNat + width.bytes ≤ 0x300000 + mmBytes := by omega
  have h6 : addr.toNat - 0x300000 = k := by omega
  simp only [target, h1, h2, h3, h4, h5, h6, ne_eq, not_true_eq_false, if_false, if_true, and_self]

/-- A legal host read (R69, R71). -/
theorem perform_read {s : State} {addr : BusAddr} {width : Width} {t : Target}
    (h : target s.config addr width = some t) :
    perform (.access (.read addr width)) s = .next (s.hostRead t width.bytes) := by
  simp only [perform_access, hostAccess, h]

/-- A legal host write while BUSY = 0, other than to CMD (R69, R71). -/
theorem perform_write {s : State} {addr : BusAddr} {width : Width} {w : Word} {t : Target}
    (hidle : s.eng = .idle) (h : target s.config addr width = some t) (hcmd : t ≠ .register (some .cmd)) :
    perform (.access (.write addr width w)) s = .next ((s.writeTarget t width.bytes w).respond .written) := by
  have hb : ¬ s.busy = true := by simp [(State.busy_eq_false_iff s).mpr hidle]
  simp only [perform_access, hostAccess, h]
  cases t with
  | register r =>
    cases r with
    | none => simp [hb]
    | some r => cases r <;> first | exact absurd rfl hcmd | simp [hb]
  | entry i => simp [hb]
  | cwm k => simp [hb]
  | mm k => simp [hb]

/-! Registers as numbers (R23 to R36). -/

theorem toNat_append_eq (a b : Nat) (x : BitVec a) (y : BitVec b) :
    (x ++ y).toNat = x.toNat * 2 ^ b + y.toNat := by
  rw [BitVec.toNat_append, ← Nat.shiftLeft_add_eq_or_of_lt y.isLt, Nat.shiftLeft_eq]

theorem toNat_ofBool_eq (b : Bool) : (BitVec.ofBool b).toNat = b.toNat := by cases b <;> rfl

theorem statusWord_toNat (s : State) : s.statusWord.toNat =
    s.busy.toNat + 2 * s.status.done.toNat + 4 * s.status.err.toNat + 8 * s.status.werr.toNat +
      256 * s.status.ecode.code.toNat + 65536 * s.status.lastOp.toNat := by
  refine (toNat_append_eq 31 1 _ _).trans ?_
  simp only [toNat_append_eq, toNat_ofBool_eq, BitVec.toNat_ofNat]
  omega

theorem readRegister_ctrl_toNat (s : State) : (s.readRegister .ctrl).toNat = s.ctl.ie.toNat := by
  refine (toNat_append_eq 31 1 _ _).trans ?_
  simp

theorem readRegister_cfg_toNat (s : State) :
    (s.readRegister .cfg).toNat = s.ctl.version.toNat + 256 * s.ctl.level.toNat := by
  refine (toNat_append_eq 26 6 _ _).trans ?_
  simp only [toNat_append_eq, BitVec.toNat_ofNat]
  omega

theorem toNat_zero16_append (v : BitVec 16) : BitVec.toNat (w := 32) (0#16 ++ v) = v.toNat := by
  refine (toNat_append_eq 16 16 _ _).trans ?_
  simp

theorem toNat_zero29_append (v : BitVec 3) : BitVec.toNat (w := 32) (0#29 ++ v) = v.toNat := by
  refine (toNat_append_eq 29 3 _ _).trans ?_
  simp

theorem readRegister_side_toNat (s : State) : (s.readRegister .side).toNat = s.sideValue := by
  have : s.sideValue < 2 ^ 32 := by
    unfold State.sideValue State.versionOk sideOf
    split
    · rename_i h
      have := (decide_eq_true_eq.mp h).2
      omega
    · decide
  simp only [State.readRegister, BitVec.toNat_ofNat]
  exact Nat.mod_eq_of_lt this

/-! Reads and writes leave every field but these alone. -/

/-- A host read changes the response, the draw counter and nothing else but IRQ's level (R71). -/
theorem hostRead_eq (s : State) (t : Target) (n : Nat) :
    ∃ r d, s.hostRead t n = (s.respond r).draw d := by
  cases t with
  | register r =>
    cases r with
    | none => exact ⟨.data 0, 0, rfl⟩
    | some r => exact ⟨.data (s.readRegister r), 0, rfl⟩
  | entry i => exact ⟨_, _, rfl⟩
  | cwm k => exact ⟨_, _, rfl⟩
  | mm k => exact ⟨_, _, rfl⟩

end Sys2Proof.Machine
end

