-- ==== Sys2Proof/Tests/Slice0.lean ====
section
/-! SUPPORT. Tests: the words of the commands, the vectors of 95_test_vectors.md, and for every obligation with
hypotheses a state and operands that meet them. -/

namespace Sys2Proof.Tests

-- One theorem after another: each `decide +kernel` would otherwise wait in a thread of its own.
set_option Elab.async false

open Sys2Proof.Machine

/-! ## Looking at an outcome -/

def nextOf : Host.Outcome State Fault Refusal → Option State
  | .next t => some t
  | _ => none

def faultOf : Host.Outcome State Fault Refusal → Option Fault
  | .fault f => some f
  | _ => none

theorem exists_next {o : Host.Outcome State Fault Refusal} {p : State → Bool}
    (h : (nextOf o).any p = true) : ∃ t, o = .next t ∧ p t = true := by
  cases o with
  | next t => exact ⟨t, rfl, h⟩
  | fault f => cases h
  | refused r => cases h

theorem exists_fault {o : Host.Outcome State Fault Refusal} (h : (faultOf o).isSome = true) :
    ∃ f, o = .fault f := by
  cases o with
  | next t => cases h
  | fault f => exact ⟨f, rfl⟩
  | refused r => cases h

/-! ## The configurations and states of 95_test_vectors.md -/

/-- TL with its mask and remainder as given. -/
def toyLayout : LayoutRecord :=
  { xCoords := (List.range 34).map (· % 8)
    yCoords := (List.range 34).map (· / 8)
    maskBytes := (List.range 34).map fun p => if p % 2 = 0 then 0x0F else 0xF0
    remainderBitCount := 2
    formatInfoCoordsX := Vector.replicate 15 0
    formatInfoCoordsY := Vector.replicate 15 0
    eccCodewordsPerBlock := 2
    blockOrder := [4] }

/-- RSG_SYN(2). -/
def synRows : List (List Byte) :=
  [0xFF, 0xFF] :: (List.range 255).map fun c => [BitVec.ofNat 8 (c + 1), BitVec.ofNat 8 (c + 1) ^^^ 0x5A]

/-- Multiplication by 2 in the field of G1. -/
def double (c : Byte) : Byte := (c <<< 1) ^^^ (if c.getLsbD 7 then 0x1D else 0)

/-- RSG_STD(2): row c is 3 * c and 2 * c (G1). -/
def stdRows : List (List Byte) :=
  (List.range 256).map fun c => [double (BitVec.ofNat 8 c) ^^^ BitVec.ofNat 8 c, double (BitVec.ofNat 8 c)]

/-- The layout of V-PL-2: eight positions that name one module. -/
def stackedLayout : LayoutRecord :=
  { toyLayout with
    xCoords := List.replicate 8 0, yCoords := List.replicate 8 0, maskBytes := List.replicate 8 0
    remainderBitCount := 0, blockOrder := [1] }

/-- Memories just deep enough: two entries, four codewords. -/
def toyParams (rows : List (List Byte)) : Params :=
  { nBfLessOne := 1, nCwLessOne := 3, layouts := [((1, 0), toyLayout)], generators := [(2, rows)] }

/-- The suggested depths and no tables. -/
def deepParams : Params := { nBfLessOne := 4095, nCwLessOne := 4095, layouts := [], generators := [] }

/-- After reset, with parameters `p`. -/
def start (p : Params) : State := { State.reset with config := p }

/-- Control registers for version `v`, level 0, capacity `m`, `c` entries, interrupts on. -/
def control (v : BitVec 6) (m c : BitVec 16) : Control :=
  { ie := true, version := v, level := 0, maxDataBits := m, bfCount := c }

/-- BFM holding the entries given as (value, width). -/
def entries (es : List (BitVec 24 × BitVec 5)) : Memory :=
  es.zipIdx.foldl (fun m e => writeEntry m e.2 { value := e.1.1, width := e.1.2 }) []

def codewords (bs : List Byte) : Memory := Memory.writeBytes [] 0 bs

/-- STATUS after DONE, ERR and an error code. -/
def reported : Status := { done := true, err := true, werr := true, ecode := .badBitfield, lastOp := 1 }

/-- TL and the table `rows`, version `v`, M = 16, `c` entries, BFM, CWM. -/
def toy (rows : List (List Byte)) (v : BitVec 6) (c : BitVec 16) (bfm cwm : Memory) : State :=
  { start (toyParams rows) with ctl := control v 16 c, status := reported, bfm := bfm, cwm := cwm }

/-- Every check of ENCODE passes; the four codewords are those of V-RS-6. -/
def ready : State := toy synRows 1 1 (entries [(0xA, 4)]) (codewords [0x12, 0x34, 0x6E, 0x7C])

/-- `ready` with `op` pending. -/
def busyWith (op : EngineOp) : State := (ready.accept (opcode op.instr)).start op

/-- PACK over the suggested depths: M and the entries. -/
def packing (m c : BitVec 16) (es : List (BitVec 24 × BitVec 5)) : State :=
  { start deepParams with ctl := control 0 m c, bfm := entries es }

/-! ## Decoding and well-formedness

The words are written out from R90 and R91: RSV in 28 bits, then OP in 4. -/

theorem test_decode_nop : decodeTableWord 32 0b00000000000000000000000000000000 = some .nop := by decide
theorem test_decode_pack : decodeTableWord 32 0b00000000000000000000000000000001 = some .pack := by decide
theorem test_decode_rsenc : decodeTableWord 32 0b00000000000000000000000000000010 = some .rsenc := by decide
theorem test_decode_place : decodeTableWord 32 0b00000000000000000000000000000011 = some .place := by decide
theorem test_decode_encode : decodeTableWord 32 0b00000000000000000000000000000100 = some .encode := by decide
theorem test_decode_sreset : decodeTableWord 32 0b00000000000000000000000000001111 = some .sreset := by decide

/-- Ill-formed words, one for each check: RSV ≠ 0 at its lowest and highest bit (R92), reserved OP at both ends
(R93). -/
theorem test_illformed_words :
    commandWellFormed 0x00000010 = false ∧ commandWellFormed 0x8000000F = false ∧
    commandWellFormed 0x00000005 = false ∧ commandWellFormed 0x0000000E = false ∧
    decodeTableWord 32 0x10 = none ∧ decodeTableWord 32 0x8000000F = none ∧
    decodeTableWord 32 0x5 = none ∧ decodeTableWord 32 0xE = none := by decide

/-! ## The vectors

Each theorem names its row of 95_test_vectors.md, which gives the expected result. -/

/-- V-CT-1. -/
theorem test_nop_status :
    (nextOf (exec .nop { start deepParams with status := { Status.reset with done := true, err := true } })).map
      State.statusWord = some 0x00000002 := by decide

/-- V-CT-9, its first half. -/
theorem test_nop_raises_irq :
    (nextOf (exec .nop { start deepParams with ctl := control 0 0 0 })).map State.irq = some true := by decide

/-- V-CT-2. -/
theorem test_illegal_reserved_bits :
    (nextOf (perform (cmdWriteEvent 0x00000010) (start deepParams))).map State.statusWord = some 0x00000506 := by
  decide

/-- V-CT-3. -/
theorem test_illegal_reserved_opcode :
    (nextOf (perform (cmdWriteEvent 0x00000007) (start deepParams))).map State.statusWord = some 0x00070506 := by
  decide

/-- V-PK-1, and the little-endian words of P1 in the first four bytes. -/
theorem test_pack_12345 :
    (nextOf (exec .pack (packing 128 4 [(1, 4), (5, 10), (123, 10), (45, 7)]))).map (fun t => t.cwm.map (·.2)) =
      some [0x10, 0x14, 0x7B, 0x5A, 0x00, 0xEC, 0x11, 0xEC, 0x11, 0xEC, 0x11, 0xEC, 0x11, 0xEC, 0x11, 0xEC] := by
  decide +kernel

/-- V-PK-3: one bit too many. -/
theorem test_pack_overflow :
    (nextOf (exec .pack (packing 16 2 [(0x1FF, 9), (0xFF, 8)]))).map (fun t => (t.status.ecode, t.cwm)) =
      some (.capacityOverflow, []) := by decide +kernel

/-- V-RS-6. -/
theorem test_rsenc_two_steps :
    (nextOf (exec .rsenc (toy synRows 1 0 [] (codewords [0x12, 0x34])))).map (fun t => t.cwm.map (·.2)) =
      some [0x12, 0x34, 0x6E, 0x7C] := by decide +kernel

/-- V-RS-7: a zero leading byte only shifts, whatever row 0 holds. -/
theorem test_rsenc_zero_byte :
    (nextOf (exec .rsenc (toy synRows 1 0 [] (codewords [0x00, 0x34])))).map (fun t => t.cwm.map (·.2)) =
      some [0x00, 0x34, 0x34, 0x6E] := by decide +kernel

/-- V-PL-1, cells (0, 0), (1, 1), (4, 0) and (0, 4) of the table of P3. -/
theorem test_place_cells :
    (nextOf (exec .place (toy synRows 1 0 [] (codewords [0xA0, 0xEC, 0x6E, 0x22])))).map
      (fun t => [0, 22, 84, 4].map (Memory.read t.mm)) =
      some [some 0xF0, some 0x0F, some 0x0F, some 0xF0] := by decide +kernel

/-- V-PL-2: the last write to a module wins. -/
theorem test_place_last_write_wins :
    (nextOf (exec .place { toy synRows 1 0 [] (codewords [0x80]) with
      config := { toyParams synRows with layouts := [((1, 0), stackedLayout)] } })).map
      (fun t => Memory.read t.mm 0) = some (some 0xFF) := by decide +kernel

/-- P3. -/
theorem test_encode_toy :
    (nextOf (exec .encode (toy stdRows 1 1 (entries [(0xA, 4)]) []))).map
      (fun t => (t.cwm.map (·.2), Memory.read t.mm 0, Memory.read t.mm 22)) =
      some ([0xA0, 0xEC, 0x6E, 0x22], some 0xF0, some 0x0F) := by decide +kernel

/-- V-CT-8. -/
theorem test_encode_empty :
    (nextOf (exec .encode (start deepParams))).map (fun t => t.status.ecode) = some .emptyData := by decide

/-- V-CT-4. -/
theorem test_sreset_idle :
    (nextOf (exec .sreset { start deepParams with ctl := { control 5 0 0 with level := 1 } })).map
      (fun t => (t.readRegister .cfg, t.readRegister .ctrl, t.irq)) = some (0, 0, false) := by decide

/-- V-CT-6. -/
theorem test_sreset_aborts :
    (nextOf (exec .sreset (busyWith .place))).map
      (fun t => (t.eng, t.status.done, (Memory.read t.mm 0).isSome)) = some (.idle, false, true) := by
  decide +kernel

/-- V-CT-5. -/
theorem test_write_while_busy :
    (nextOf (perform (.access (.write 0x000010 .w32 2)) (busyWith .pack))).map
      (fun t => (t.ctl.version, t.status.werr)) = some (1, true) := by decide

/-- V-CT-10. -/
theorem test_bus_error :
    (nextOf (perform (.access (.write 0x000004 .w16 1)) (start deepParams))).map
      (fun t => (t.ctl.ie, t.response)) = some (false, .writeError) := by decide

/-- P1: CWM bytes 10 14 7B 5A read as one little-endian word. -/
theorem test_read_word :
    (nextOf (perform (.access (.read 0x200000 .w32))
      { start deepParams with cwm := codewords [0x10, 0x14, 0x7B, 0x5A] })).map State.response =
      some (.data 0x5A7B1410) := by decide

/-- V-CT-11 and V-CT-12. -/
theorem test_register_page :
    (nextOf (perform (.access (.read 0x000100 .w32)) (start deepParams))).map State.response = some (.data 0) ∧
    (nextOf (perform (.access (.read 0x000000 .w32)) (start deepParams))).map State.response =
      some (.data 0x51525345) := by decide

/-- The first instruction after reset: a placed command runs in the very next step (log 11). -/
theorem test_first_step_after_reset :
    (nextOf (step (State.reset.withFetchWord 32 0))).map (fun t => t.status.done) = some true ∧
    (nextOf (step (State.reset.withFetchWord 32 0xF))).map (fun t => t.response) = some .written := by decide

/-! ## Witnesses: states and operands that meet the hypotheses of the obligations

`witness_<Name>` is about `Obligations.<Name>`; a statement with several clauses has one witness for each, at the
ends of its ranges. -/

theorem ready_entries : HoldsEntries ready [{ value := 0xA, width := 4 }] :=
  ⟨rfl, by decide, by decide +kernel⟩

theorem ready_legal : AllLegal [{ value := 0xA, width := 4 }] := by unfold AllLegal; decide

theorem ready_pack : PackReady ready [{ value := 0xA, width := 4 }] :=
  ⟨ready_entries, ready_legal, by decide, by decide, by decide, by decide, by decide⟩

theorem ready_rs : RsTablesConsistent ready toyLayout synRows :=
  (rsTables_eq_some_iff _ _ _).mp (by decide +kernel)

theorem ready_place : PlaceTablesConsistent ready toyLayout :=
  (placeTables_eq_some_iff _ _).mp (by decide +kernel)

theorem ready_codewords : HoldsCodewords ready [0x12, 0x34, 0x6E, 0x7C] (totalCodewords toyLayout) :=
  ⟨by decide, by decide +kernel⟩

theorem ready_encode : EncodeReady ready [{ value := 0xA, width := 4 }] toyLayout synRows :=
  ⟨ready_pack, by decide, by decide, ready_rs, ready_place⟩

theorem ready_rsenc : RsencReady ready toyLayout synRows [0x12, 0x34] :=
  ⟨by decide, by decide, by decide, by decide, by decide, ready_rs, ⟨by decide, by decide +kernel⟩⟩

theorem ready_placing : PlaceReady ready toyLayout [0x12, 0x34, 0x6E, 0x7C] :=
  ⟨by decide, by decide, ready_place, ready_codewords⟩

/-- No record at all: neither table check passes. -/
def untabled (v : BitVec 6) (m : BitVec 16) : State :=
  { ready with ctl := control v m 1, config := { toyParams synRows with layouts := [] } }

theorem untabled_rs (v : BitVec 6) (m : BitVec 16) (rec : LayoutRecord) (rows : List (List Byte)) :
    ¬ RsTablesConsistent (untabled v m) rec rows := fun h => by cases h.layout

theorem untabled_place (v : BitVec 6) (m : BitVec 16) (rec : LayoutRecord) :
    ¬ PlaceTablesConsistent (untabled v m) rec := fun h => by cases h.layout

/-- The entries of `ready` stay readable under other control registers and other layouts. -/
theorem untabled_pack (v : BitVec 6) : PackReady (untabled v 16) [{ value := 0xA, width := 4 }] :=
  ⟨⟨rfl, ready_entries.depth, ready_entries.written⟩, ready_legal, by decide, ready_pack.capacity_pos,
    ready_pack.capacity_bytes, ready_pack.capacity_fits, ready_pack.fits⟩

theorem witness_DecodeEncodeAgree :
    Instr.wellFormed .sreset = true ∧ decode 0x0000000F#32 = .ok .sreset ∧
    rsvClear 0x00000010#32 = false ∧ rsvClear 0xFFFFFFFF#32 = false ∧
    (rsvClear 0x00000005#32 = true ∧ opAssigned 0x00000005#32 = false) ∧
    (rsvClear 0x0000000E#32 = true ∧ opAssigned 0x0000000E#32 = false) := by decide

theorem witness_StepRunsDecodedCommand :
    (let s : State := { ready with inputs := [cmdWriteEvent 0x00000000#32] }
     s.inputs = cmdWriteEvent 0x00000000#32 :: [] ∧ decode 0x00000000#32 = .ok .nop ∧
       Instr.wellFormed .nop = true ∧ engineOp .nop = none ∧ s.busy = false) ∧
    (let s : State := { busyWith .pack with inputs := [cmdWriteEvent 0x0000000F#32] }
     s.inputs = cmdWriteEvent 0x0000000F#32 :: [] ∧ decode 0x0000000F#32 = .ok .sreset ∧
       Instr.wellFormed .sreset = true ∧ engineOp .sreset = none ∧ s.busy = true) ∧
    (let s : State := { ready with inputs := [cmdWriteEvent 0x00000004#32] }
     s.inputs = cmdWriteEvent 0x00000004#32 :: [] ∧ decode 0x00000004#32 = .ok .encode ∧
       Instr.wellFormed .encode = true ∧ engineOp .encode = some .encode ∧ s.busy = false) ∧
    (let s : State := { busyWith .rsenc with inputs := [.engine] }
     s.eng = .pending .rsenc ∧ s.inputs = .engine :: []) ∧
    ((busyWith .place).eng = .pending .place ∧ (busyWith .place).inputs = []) ∧
    engineOp .pack = some .pack ∧ engineOp .nop = none := by decide

theorem witness_CmdWriteRule :
    ((busyWith .pack).busy = true ∧ (0x0000000F#32 : Word) = 0x0000000F#32) ∧
    ((busyWith .pack).busy = true ∧ (0x0000001F#32 : Word) ≠ 0x0000000F#32) ∧
    (ready.busy = false ∧ decode 0x00000000#32 = .ok .nop) ∧
    (ready.busy = false ∧ decode 0x0000000F#32 = .ok .sreset) ∧
    (ready.busy = false ∧ commandWellFormed 0x0000001F#32 = false ∧ commandWellFormed 0x00000005#32 = false) ∧
    (ready.busy = false ∧ decode 0x00000001#32 = .ok EngineOp.pack.instr) := by decide

theorem witness_IllegalCommandCompletes :
    ready.eng = .idle ∧ (16 ≤ (0x00000010#32 : Word).toNat) ∧
    (5 ≤ (0x00000005#32 : Word).toNat % 16 ∧ (0x00000005#32 : Word).toNat % 16 ≤ 14) ∧
    (5 ≤ (0x0000000E#32 : Word).toNat % 16 ∧ (0x0000000E#32 : Word).toNat % 16 ≤ 14) := by decide

theorem witness_WriteWhileBusyDropped :
    (busyWith .place).busy = true ∧
    (LegalAccess (busyWith .place).config 0x000FFC .w32 ∧ ¬ (0x000FFC#22 = 0x000008 ∧ (0 : Word) = 0x0000000F#32)) ∧
    (LegalAccess (busyWith .place).config 0x000008 .w32 ∧
      ¬ (0x000008#22 = 0x000008 ∧ (0x0000001F#32 : Word) = 0x0000000F#32)) ∧
    LegalAccess (busyWith .place).config 0x100004 .w32 ∧ LegalAccess (busyWith .place).config 0x200003 .w8 ∧
    LegalAccess (busyWith .place).config 0x307A60 .w8 := by
  unfold LegalAccess; decide

theorem witness_PendingCommandIsFixed :
    (busyWith .encode).eng = .pending .encode ∧
    Access.write 0x000010 .w32 3 ≠ .write 0x000008 .w32 0x0000000F#32 ∧
    ∃ t, perform (.access (.write 0x000010 .w32 3)) (busyWith .encode) = .next t := by
  refine ⟨rfl, by decide, ?_⟩
  rw [perform_access]
  exact hostAccess_total _ _

theorem witness_NoCommandStaysPending :
    ∃ t, Sys2Proof.core.run ((busyWith .pack).inputs.length + 1) (busyWith .pack) = .next t := by
  refine (exists_next (p := fun _ => true) ?_).imp fun _ h => h.1
  decide +kernel

theorem reset_invariant : Invariant State.reset := by
  constructor <;> simp [State.reset, Control.reset, Status.reset, Results.reset, State.irqLevel, State.pendingOk]

theorem witness_FinalStateIsStable : State.reset.final ∧ Invariant State.reset := ⟨⟨rfl, rfl⟩, reset_invariant⟩

theorem witness_NopCompletes :
    ready.eng = .idle ∧ (busyWith .pack).busy = true ∧
    ((0x00000010#32 : Word).toNat % 16 = 0 ∧ (0x00000010#32 : Word) ≠ 0) := by decide

theorem witness_TerminatorWidthRule :
    ((12 : Nat) : Int) ≤ ((16 : Nat) : Int) - 4 ∧ (((16 : Nat) : Int) - 4 < ((13 : Nat) : Int) ∧ 13 < 16) ∧
    (((16 : Nat) : Int) - 4 < ((15 : Nat) : Int) ∧ 15 < 16) ∧
    (let s := packing 16 2 [(0x1FF, 9), (0xFF, 8)]
     HoldsEntries s [{ value := 0x1FF, width := 9 }, { value := 0xFF, width := 8 }] ∧
       AllLegal [{ value := 0x1FF, width := 9 }, { value := 0xFF, width := 8 }] ∧
       0 < s.capacity ∧ s.capacity % 8 = 0 ∧ s.dataCount ≤ s.config.nCw ∧
       s.capacity < totalDataBits [{ value := 0x1FF, width := 9 }, { value := 0xFF, width := 8 }]) := by
  refine ⟨by decide, by decide, by decide, ⟨rfl, by decide, by decide +kernel⟩, by unfold AllLegal; decide, ?_⟩
  decide

theorem witness_BitStreamIsMsbFirst :
    0 < (Entry.mk 0xA 4).width.toNat ∧ 3 < (Entry.mk 0xA 4).width.toNat := by decide

theorem witness_CodewordsAreBigEndian :
    (toCodewords [true, false, true])[0]? = some 0xA0#8 ∧ (7 : Nat) < 8 ∧
    (8 * 0 + 2 < [true, false, true].length) ∧ ¬ (8 * 0 + 3 < [true, false, true].length) := by decide

theorem witness_PadCodewordsAlternate :
    0 < 1 ∧ 1 < 2 ∧ (16 % 8 = 0 ∧ totalDataBits [{ value := 0xFFFF, width := 16 }] ≤ 16) := by decide

theorem witness_PackWritesCodewords : PackReady ready [{ value := 0xA, width := 4 }] ∧ 1 < ready.dataCount :=
  ⟨ready_pack, by decide⟩

theorem witness_PackResultRegisters :
    PackReady ready [{ value := 0xA, width := 4 }] ∧ ∃ t, exec .pack (start deepParams) = .next t ∧ t.status.err = true :=
  ⟨ready_pack, exists_next (by decide)⟩

theorem witness_PackFrame :
    (∃ t, exec .pack ready = .next t) ∧ ready.capacity >>> 3 ≤ 2 :=
  ⟨(exists_next (p := fun _ => true) (by decide +kernel)).imp fun _ h => h.1, by decide⟩

/-- Entries of which the second is illegal: VALUE = 2^WIDTH (V-PK-10). -/
def illegalEntry : State := packing 16 2 [(1, 1), (4, 2)]

theorem illegalEntry_holds :
    HoldsEntries illegalEntry [{ value := 1, width := 1 }, { value := 4, width := 2 }] :=
  ⟨rfl, by decide, by decide +kernel⟩

theorem illegalEntry_illegal : ¬ AllLegal [{ value := 1, width := 1 }, { value := 4, width := 2 }] := by
  unfold AllLegal; decide

/-- One legal entry of width `w` under capacity `m`, two codewords deep, version `v`. -/
def oneEntry (v : BitVec 6) (m : BitVec 16) (w : BitVec 5) : State :=
  { ready with ctl := control v m 1, bfm := entries [(0, w)] }

theorem oneEntry_written (w : BitVec 5) :
    ∀ i (h : i < 1), readEntry (entries [(0, w)]) i = .ok ([Entry.mk 0 w][i]) := by
  revert w; decide +kernel

theorem oneEntry_holds (v : BitVec 6) (m : BitVec 16) (w : BitVec 5) :
    HoldsEntries (oneEntry v m w) [{ value := 0, width := w }] :=
  ⟨rfl, by show 1 ≤ 2; omega, oneEntry_written w⟩

theorem oneEntry_legal : AllLegal [{ value := 0, width := 24 }] ∧ AllLegal [{ value := 0, width := 0 }] := by
  unfold AllLegal; decide

theorem witness_PackChecksInOrder :
    (packing 16 4097 []).config.nBf < (packing 16 4097 []).entryCount ∧
    (HoldsEntries illegalEntry [{ value := 1, width := 1 }, { value := 4, width := 2 }] ∧
      ¬ AllLegal [{ value := 1, width := 1 }, { value := 4, width := 2 }]) ∧
    (HoldsEntries (oneEntry 0 16 0) [{ value := 0, width := 0 }] ∧ AllLegal [{ value := 0, width := 0 }] ∧
      totalDataBits [{ value := 0, width := 0 }] = 0) ∧
    (HoldsEntries (oneEntry 0 0 24) [{ value := 0, width := 24 }] ∧ AllLegal [{ value := 0, width := 24 }] ∧
      0 < totalDataBits [{ value := 0, width := 24 }] ∧ (oneEntry 0 0 24).capacity = 0 ∧
      (oneEntry 0 12 24).capacity % 8 ≠ 0 ∧
      (oneEntry 0 40 24).config.nCw < (oneEntry 0 40 24).capacity >>> 3) ∧
    (HoldsEntries (oneEntry 0 16 24) [{ value := 0, width := 24 }] ∧ 0 < (oneEntry 0 16 24).capacity ∧
      (oneEntry 0 16 24).capacity % 8 = 0 ∧
      (oneEntry 0 16 24).capacity >>> 3 ≤ (oneEntry 0 16 24).config.nCw ∧
      (oneEntry 0 16 24).capacity < totalDataBits [{ value := 0, width := 24 }]) :=
  ⟨by decide, ⟨illegalEntry_holds, illegalEntry_illegal⟩,
    ⟨oneEntry_holds _ _ _, oneEntry_legal.2, by decide⟩,
    ⟨oneEntry_holds _ _ _, oneEntry_legal.1, by decide, by decide, by decide, by decide⟩,
    ⟨oneEntry_holds _ _ _, by decide, by decide, by decide, by decide⟩⟩

theorem witness_UnwrittenEntryFaults :
    let s := packing 16 2 [(0xA, 4)]
    let es : List Entry := [{ value := 0xA, width := 4 }]
    s.entryCount ≤ s.config.nBf ∧ es.length < s.entryCount ∧
    (∀ j (h : j < es.length), readEntry s.bfm j = .ok es[j]) ∧ AllLegal es ∧
    4 * es.length ≤ 4 ∧ 4 < 4 * es.length + 4 ∧ Memory.read s.bfm 4 = none ∧
    (∀ j, 4 * es.length ≤ j → j < 4 → Memory.read s.bfm j ≠ none) := by
  refine ⟨by decide, by decide, by decide +kernel, ready_legal, by decide, by decide, by decide, ?_⟩
  intro j h1 h2
  simp at h1
  omega

theorem witness_DivisionStepRule :
    synRows[(0x12#8 : Byte).toNat]? = some [0x12, 0x48] ∧ [0x12#8, 0x48#8].length = 2 ∧
    2 ≤ [0x34#8, 0#8, 0#8].length ∧ 2 < [0x34#8, 0#8, 0#8].length ∧
    synRows[(0#8 : Byte).toNat]? = some [0xFF, 0xFF] := by decide

theorem witness_ZeroLeadingByteOnlyShifts :
    (∀ c, c ≠ 0 → synRows[c]? = (synRows.set 0 [0, 0])[c]?) ∧ synRows ≠ synRows.set 0 [0, 0] := by
  refine ⟨fun c hc => ?_, by decide +kernel⟩
  rw [List.getElem?_set_ne (fun h => hc h.symm)]

theorem witness_ParityIsLinear :
    (∀ c : Byte, (stdRows.getD c.toNat []).length = 2) ∧
    (∀ a b : Byte, stdRows.getD (a ^^^ b).toNat [] =
      List.zipWith (· ^^^ ·) (stdRows.getD a.toNat []) (stdRows.getD b.toNat [])) ∧
    [0xA0#8, 0xEC#8].length = [0x12#8, 0x34#8].length := by
  have row : ∀ c : Byte, stdRows.getD c.toNat [] = [double c ^^^ c, double c] := by decide +kernel
  have add : ∀ a b : Byte, double (a ^^^ b) = double a ^^^ double b := fun a b => by
    unfold double
    rw [BitVec.shiftLeft_xor_distrib, BitVec.getLsbD_xor]
    generalize a <<< 1 = x
    generalize b <<< 1 = y
    have cancel : x ^^^ 0x1D ^^^ (y ^^^ 0x1D) = x ^^^ y := by
      rw [show x ^^^ 0x1D ^^^ (y ^^^ 0x1D) = x ^^^ y ^^^ (0x1D ^^^ 0x1D) by ac_rfl, BitVec.xor_self, BitVec.xor_zero]
    cases a.getLsbD 7 <;> cases b.getLsbD 7 <;> simp <;> first | ac_rfl | exact cancel.symm
  refine ⟨fun c => by rw [row]; rfl, fun a b => ?_, rfl⟩
  rw [row, row, row, add]
  simp only [List.zipWith_cons_cons, List.zipWith_nil_left, List.cons.injEq, and_true]
  ac_rfl

theorem witness_RsencWritesParity :
    RsencReady ready toyLayout synRows [0x12, 0x34] ∧ 0 < toyLayout.blockOrder.length ∧
    1 < toyLayout.eccCodewordsPerBlock ∧ 1 < ready.dataCount :=
  ⟨ready_rsenc, by decide, by decide, by decide⟩

theorem witness_RsencResultRegisters :
    RsencReady ready toyLayout synRows [0x12, 0x34] ∧
    ∃ t, exec .rsenc (start deepParams) = .next t ∧ t.status.err = true :=
  ⟨ready_rsenc, exists_next (by decide)⟩

theorem witness_RsencFrame :
    (∃ t, exec .rsenc ready = .next t) ∧
    layoutOf ready.config ready.version ready.level = some toyLayout ∧
    ready.dataCount + toyLayout.blockOrder.length * toyLayout.eccCodewordsPerBlock ≤ 4 ∧ 1 < ready.dataCount ∧
    (∃ t, exec .rsenc (untabled 1 16) = .next t) ∧
    layoutOf (untabled 1 16).config (untabled 1 16).version (untabled 1 16).level = none :=
  ⟨(exists_next (p := fun _ => true) (by decide +kernel)).imp fun _ h => h.1, by decide, by decide, by decide,
    (exists_next (p := fun _ => true) (by decide +kernel)).imp fun _ h => h.1, by decide⟩

theorem witness_RsencChecksInOrder :
    ¬ (1 ≤ (untabled 0 16).version ∧ (untabled 0 16).version ≤ 40) ∧
    ¬ (1 ≤ (untabled 41 16).version ∧ (untabled 41 16).version ≤ 40) ∧
    ((1 ≤ (untabled 1 0).version ∧ (untabled 1 0).version ≤ 40) ∧ (untabled 1 0).capacity = 0) ∧
    ((1 ≤ (untabled 40 12).version ∧ (untabled 40 12).version ≤ 40) ∧ (untabled 40 12).capacity % 8 ≠ 0) ∧
    (untabled 1 40).config.nCw < (untabled 1 40).capacity >>> 3 ∧
    ((1 ≤ (untabled 1 16).version ∧ (untabled 1 16).version ≤ 40) ∧ 0 < (untabled 1 16).capacity ∧
      (untabled 1 16).capacity % 8 = 0 ∧ (untabled 1 16).capacity >>> 3 ≤ (untabled 1 16).config.nCw ∧
      ∀ rec rows, ¬ RsTablesConsistent (untabled 1 16) rec rows) :=
  ⟨by decide, by decide, by decide, by decide, by decide, by decide, by decide, by decide, by decide,
    untabled_rs 1 16⟩

/-- `ready` with CWM[0] written and nothing else in CWM. -/
def halfWritten : State := { ready with cwm := codewords [0x12] }

theorem witness_UnwrittenCodewordFaults :
    1 ≤ halfWritten.version ∧ halfWritten.version ≤ 40 ∧ 0 < halfWritten.capacity ∧ halfWritten.capacity % 8 = 0 ∧
    halfWritten.dataCount ≤ halfWritten.config.nCw ∧ RsTablesConsistent halfWritten toyLayout synRows ∧
    PlaceTablesConsistent halfWritten toyLayout ∧ 1 < halfWritten.dataCount ∧ 1 < totalCodewords toyLayout ∧
    Memory.read halfWritten.cwm 1 = none ∧ ∀ j, j < 1 → Memory.read halfWritten.cwm j ≠ none :=
  ⟨by decide, by decide, by decide, by decide, by decide, ready_rs.congr rfl rfl, ready_place.congr rfl rfl,
    by decide, by decide, by decide, by decide⟩

/-- TL names each module once, so every write is the last one to its module. -/
theorem toyLayout_injective : ∀ p q : Fin 35,
    xCoord toyLayout q = xCoord toyLayout p ∧ yCoord toyLayout q = yCoord toyLayout p ∧ 1 ≤ q.val ∧ 1 ≤ p.val →
      placeRank 4 q ≤ placeRank 4 p := by decide +kernel

/-- Position 1, and position 34, the last remainder bit. -/
theorem witness_PlaceWritesModules :
    PlaceReady ready toyLayout [0x12, 0x34, 0x6E, 0x7C] ∧
    ∀ p, p = 1 ∨ p = 34 → 1 ≤ p ∧ p ≤ positionCount toyLayout ∧
      ∀ q, 1 ≤ q → q ≤ positionCount toyLayout →
        xCoord toyLayout q = xCoord toyLayout p → yCoord toyLayout q = yCoord toyLayout p →
          placeRank [0x12#8, 0x34#8, 0x6E#8, 0x7C#8].length q ≤ placeRank [0x12#8, 0x34#8, 0x6E#8, 0x7C#8].length p := by
  have hP : positionCount toyLayout = 34 := by decide
  refine ⟨ready_placing, fun p hp => ?_⟩
  rw [hP]
  exact ⟨by omega, by omega, fun q h1 h2 hx hy =>
    toyLayout_injective ⟨p, by omega⟩ ⟨q, by omega⟩ ⟨hx, hy, h1, by show 1 ≤ p; omega⟩⟩

theorem toyLayout_unplaced : ∀ p, p < 35 → 1 ≤ p →
    xCoord toyLayout p * 21 + yCoord toyLayout p ≠ 8 ∧ xCoord toyLayout p * 21 + yCoord toyLayout p ≠ 31328 := by
  decide +kernel

/-- Byte 8 lies inside the grid and is unplaced; byte 31328, the last one, lies outside it. -/
theorem witness_UnplacedModulesAreZero :
    PlaceReady ready toyLayout [0x12, 0x34, 0x6E, 0x7C] ∧
    ∀ a, a = 8 ∨ a = 31328 → a < 31329 ∧
      ∀ p, 1 ≤ p → p ≤ positionCount toyLayout →
        xCoord toyLayout p * (17 + 4 * ready.version) + yCoord toyLayout p ≠ a := by
  have hP : positionCount toyLayout = 34 := by decide
  have hS : 17 + 4 * ready.version = 21 := by decide
  refine ⟨ready_placing, fun a ha => ⟨by omega, fun p h1 h2 => ?_⟩⟩
  rw [hP] at h2
  rw [hS]
  have := toyLayout_unplaced p (by omega) h1
  rcases ha with rfl | rfl
  · exact this.1
  · exact this.2

theorem witness_PlaceFrame :
    (∃ t, exec .place ready = .next t) ∧ ∃ t, exec .place (start deepParams) = .next t ∧ t.status.err = true :=
  ⟨(exists_next (p := fun _ => true) (by decide +kernel)).imp fun _ h => h.1, exists_next (by decide)⟩

theorem witness_PlaceChecksInOrder :
    ¬ (1 ≤ (untabled 0 16).version ∧ (untabled 0 16).version ≤ 40) ∧
    ¬ (1 ≤ (untabled 41 16).version ∧ (untabled 41 16).version ≤ 40) ∧
    ((1 ≤ (untabled 40 16).version ∧ (untabled 40 16).version ≤ 40) ∧
      ∀ rec, ¬ PlaceTablesConsistent (untabled 40 16) rec) :=
  ⟨by decide, by decide, by decide, untabled_place 40 16⟩

theorem witness_EncodeIsThePipeline : EncodeReady ready [{ value := 0xA, width := 4 }] toyLayout synRows :=
  ready_encode

theorem witness_EncodeChecksInOrder :
    (packing 16 4097 []).config.nBf < (packing 16 4097 []).entryCount ∧
    (HoldsEntries illegalEntry [{ value := 1, width := 1 }, { value := 4, width := 2 }] ∧
      ¬ AllLegal [{ value := 1, width := 1 }, { value := 4, width := 2 }]) ∧
    (HoldsEntries (oneEntry 0 0 0) [{ value := 0, width := 0 }] ∧ AllLegal [{ value := 0, width := 0 }] ∧
      totalDataBits [{ value := 0, width := 0 }] = 0) ∧
    (HoldsEntries (oneEntry 41 0 24) [{ value := 0, width := 24 }] ∧ AllLegal [{ value := 0, width := 24 }] ∧
      0 < totalDataBits [{ value := 0, width := 24 }] ∧
      ¬ (1 ≤ (oneEntry 41 0 24).version ∧ (oneEntry 41 0 24).version ≤ 40)) ∧
    (HoldsEntries (oneEntry 40 12 24) [{ value := 0, width := 24 }] ∧
      (1 ≤ (oneEntry 40 12 24).version ∧ (oneEntry 40 12 24).version ≤ 40) ∧ (oneEntry 40 12 24).capacity % 8 ≠ 0) ∧
    (HoldsEntries (oneEntry 1 16 24) [{ value := 0, width := 24 }] ∧
      (1 ≤ (oneEntry 1 16 24).version ∧ (oneEntry 1 16 24).version ≤ 40) ∧ 0 < (oneEntry 1 16 24).capacity ∧
      (oneEntry 1 16 24).capacity % 8 = 0 ∧ (oneEntry 1 16 24).capacity >>> 3 ≤ (oneEntry 1 16 24).config.nCw ∧
      (oneEntry 1 16 24).capacity < totalDataBits [{ value := 0, width := 24 }]) ∧
    (PackReady (untabled 1 16) [{ value := 0xA, width := 4 }] ∧
      (1 ≤ (untabled 1 16).version ∧ (untabled 1 16).version ≤ 40) ∧
      (∀ rec rows, ¬ RsTablesConsistent (untabled 1 16) rec rows) ∧
      ∀ rec, ¬ PlaceTablesConsistent (untabled 1 16) rec) :=
  ⟨by decide, ⟨illegalEntry_holds, illegalEntry_illegal⟩,
    ⟨oneEntry_holds _ _ _, oneEntry_legal.2, by decide⟩,
    ⟨oneEntry_holds _ _ _, oneEntry_legal.1, by decide, by decide⟩,
    ⟨oneEntry_holds _ _ _, by decide, by decide⟩,
    ⟨oneEntry_holds _ _ _, by decide, by decide, by decide, by decide, by decide⟩,
    ⟨untabled_pack 1, by decide, untabled_rs 1 16, untabled_place 1 16⟩⟩

theorem witness_EncodeFaultsOnlyOnBitField : ∃ f, exec .encode (packing 16 1 []) = .fault f :=
  exists_fault (by decide)

theorem witness_EncodeFrame :
    (∃ t, exec .encode ready = .next t) ∧
    (layoutOf ready.config ready.version ready.level = some toyLayout ∧ totalCodewords toyLayout ≤ 4) ∧
    ∃ t, exec .encode (start deepParams) = .next t ∧ t.status.err = true :=
  ⟨(exists_next (p := fun _ => true) (by decide +kernel)).imp fun _ h => h.1, by decide,
    exists_next (by decide)⟩

theorem witness_SresetWhenIdle : ready.eng = .idle := rfl

theorem witness_SresetAbortsPending :
    (busyWith .pack).eng = .pending .pack ∧ (busyWith .rsenc).eng = .pending .rsenc ∧
    (busyWith .place).eng = .pending .place ∧ (busyWith .encode).eng = .pending .encode := by decide

theorem witness_ErrorWritesNothing : ∃ t, exec EngineOp.pack.instr (start deepParams) = .next t ∧ t.status.err = true :=
  exists_next (by decide)

theorem witness_ErrorCodesByCommand :
    (∃ t, exec .pack (start deepParams) = .next t ∧ decide (t.status.ecode = .emptyData) = true) ∧
    (∃ t, exec .rsenc (start deepParams) = .next t ∧ decide (t.status.ecode = .versionRange) = true) ∧
    (∃ t, exec .place (untabled 1 16) = .next t ∧ decide (t.status.ecode = .malformedTable) = true) ∧
    (∃ t, exec .encode ready = .next t ∧ decide (t.status.ecode = .none) = true) :=
  ⟨exists_next (by decide), exists_next (by decide), exists_next (by decide), exists_next (by decide +kernel)⟩

theorem witness_IrqFollowsDone : ∃ t, step (busyWith .pack) = .next t ∧ t.irq = true :=
  exists_next (by decide +kernel)

theorem witness_StatusWriteOneClears :
    ready.eng = .idle ∧ (0x4#32 : Word).getLsbD 2 = true ∧ (0xB#32 : Word).getLsbD 2 = false := by decide

theorem witness_WerrIsSticky :
    ready.status.werr = true ∧
    (∃ t, step { ready with inputs := [.hardReset] } = .next t ∧ (!t.status.werr) = true) ∧
    (∃ t, step { ready with inputs := [cmdWriteEvent 0x0000000F#32] } = .next t ∧ (!t.status.werr) = true) ∧
    (∃ t, step { ready with inputs := [.access (.write 0x00000C .w32 8)] } = .next t ∧ (!t.status.werr) = true) :=
  ⟨by decide, exists_next (by decide), exists_next (by decide), exists_next (by decide)⟩

theorem witness_RegisterReadValues :
    ((0x000000#22 : BusAddr).toNat < 0x1000 ∧ (0x000000#22 : BusAddr).toNat % 4 = 0) ∧
    ((0x000038#22 : BusAddr).toNat < 0x1000 ∧ (0x000038#22 : BusAddr).toNat % 4 = 0) ∧
    ((0x000FFC#22 : BusAddr).toNat < 0x1000 ∧ (0x000FFC#22 : BusAddr).toNat % 4 = 0) := by decide

theorem witness_RegisterWriteEffects :
    ready.eng = .idle ∧
    ((0x000010#22 : BusAddr).toNat < 0x1000 ∧ (0x000010#22 : BusAddr).toNat % 4 = 0 ∧
      (0x000010#22 : BusAddr).toNat ≠ 0x008 ∧ (0x000010#22 : BusAddr).toNat ≠ 0x00C) ∧
    ((0x000FFC#22 : BusAddr).toNat < 0x1000 ∧ (0x000FFC#22 : BusAddr).toNat % 4 = 0 ∧
      (0x000FFC#22 : BusAddr).toNat ≠ 0x008 ∧ (0x000FFC#22 : BusAddr).toNat ≠ 0x00C) := by decide

/-- Unmapped, misaligned, a width the range does not take, bytes past the end of a window. -/
theorem witness_BusErrorChangesNothing :
    ¬ LegalAccess ready.config 0x001000 .w32 ∧ ¬ LegalAccess ready.config 0x200001 .w16 ∧
    ¬ LegalAccess ready.config 0x000004 .w16 ∧ ¬ LegalAccess ready.config 0x200004 .w8 ∧
    ¬ LegalAccess ready.config 0x307A60 .w32 := by
  unfold LegalAccess; decide

theorem witness_HostWriteToCodewords :
    ready.eng = .idle ∧
    ((0x200000#22 : BusAddr).toNat = 0x200000 + 0 ∧ 0 % Width.w32.bytes = 0 ∧ 0 + Width.w32.bytes ≤ ready.config.nCw) ∧
    ((0x200003#22 : BusAddr).toNat = 0x200000 + 3 ∧ 3 % Width.w8.bytes = 0 ∧ 3 + Width.w8.bytes ≤ ready.config.nCw) := by
  decide

theorem witness_HostWriteToMatrix :
    ready.eng = .idle ∧
    ((0x300000#22 : BusAddr).toNat = 0x300000 + 0 ∧ 0 % Width.w32.bytes = 0 ∧ 0 + Width.w32.bytes ≤ 31329) ∧
    ((0x307A60#22 : BusAddr).toNat = 0x300000 + 31328 ∧ 31328 % Width.w8.bytes = 0 ∧
      31328 + Width.w8.bytes ≤ 31329) := by decide

theorem witness_HostReadOfWrittenBytes :
    (ready.eng = .idle ∧ 2 % Width.w16.bytes = 0 ∧ (0x200002#22 : BusAddr).toNat = 0x200000 + 2 ∧
      2 + Width.w16.bytes ≤ ready.config.nCw ∧
      ∀ i, i < Width.w16.bytes → Memory.read ready.cwm (2 + i) = some ([0x6E#8, 0x7C#8].getD i 0)) ∧
    (let s : State := { ready with mm := [(31328, 0xFF)] }
     s.eng = .idle ∧ 31328 % Width.w8.bytes = 0 ∧ (0x307A60#22 : BusAddr).toNat = 0x300000 + 31328 ∧
      31328 + Width.w8.bytes ≤ 31329 ∧
      ∀ i, i < Width.w8.bytes → Memory.read s.mm (31328 + i) = some ([0xFF#8].getD i 0)) := by decide

theorem witness_EntryWriteThenRead :
    ready.eng = .idle ∧ (0x100004#22 : BusAddr).toNat = 0x100000 + 4 * 1 ∧ 1 < ready.config.nBf ∧
    (0x100000#22 : BusAddr).toNat = 0x100000 + 4 * 0 := by decide

theorem witness_StepKeepsInvariant : Invariant State.reset ∧ ∃ t, step State.reset = .next t :=
  ⟨reset_invariant, ⟨_, rfl⟩⟩

theorem witness_StepKeepsParameters : ∃ t, step (busyWith .pack) = .next t :=
  (exists_next (p := fun _ => true) (by decide +kernel)).imp fun _ h => h.1

theorem witness_CommandsWriteTheirMemoriesOnly :
    (∃ t, exec .nop ready = .next t) ∧ (∃ t, exec .place ready = .next t) ∧
    (∃ t, exec .pack ready = .next t) ∧ (∃ t, exec .rsenc ready = .next t) ∧
    ((∃ t, exec .sreset ready = .next t) ∧ ready.eng = .idle) ∧
    ((∃ t, exec .sreset (busyWith .place) = .next t) ∧ (busyWith .place).eng = .pending .place) ∧
    ((∃ t, exec .sreset (busyWith .pack) = .next t) ∧ (busyWith .pack).eng ≠ .pending .place ∧
      (busyWith .pack).eng ≠ .pending .encode) :=
  ⟨⟨_, rfl⟩, (exists_next (p := fun _ => true) (by decide +kernel)).imp fun _ h => h.1,
    (exists_next (p := fun _ => true) (by decide +kernel)).imp fun _ h => h.1,
    (exists_next (p := fun _ => true) (by decide +kernel)).imp fun _ h => h.1,
    ⟨⟨_, rfl⟩, by decide⟩, ⟨⟨_, rfl⟩, by decide⟩, ⟨⟨_, rfl⟩, by decide, by decide⟩⟩

theorem witness_OnlyUnwrittenReadsStop :
    ∃ f, step { busyWith .place with cwm := [] } = .fault f := exists_fault (by decide +kernel)

end Sys2Proof.Tests
end

section
/-! SUPPORT. The decoder: a word that decodes is the word of its command. -/

namespace Sys2Proof.Machine

/-- A word that decodes carries the opcode of its command (R90, R91). -/
theorem opField_of_decode {w : Word} {i : Instr} (h : decode w = .ok i) : opField w = opcode i := by
  unfold decode at h
  split at h
  · cases h
  · apply BitVec.eq_of_toNat_eq
    split at h <;> cases h <;> assumption

/-- A word that decodes has RSV = 0 (R92). -/
theorem rsvField_of_decode {w : Word} {i : Instr} (h : decode w = .ok i) : rsvField w = 0 := by
  by_contra hne
  rw [decode, if_pos hne] at h
  cases h

/-- A word that decodes is the word of its command (R91, R96). -/
theorem eq_encode_of_decode {w : Word} {i : Instr} (h : decode w = .ok i) : w = encode i := by
  have hrsv : w.toNat / 16 % 2 ^ 28 = 0 := by
    rw [← Nat.shiftRight_eq_div_pow w.toNat 4, ← BitVec.extractLsb'_toNat]
    exact congrArg BitVec.toNat (rsvField_of_decode h)
  have hop : w.toNat % 16 = (opcode i).toNat := by
    rw [← opField_of_decode h, opField, BitVec.extractLsb'_toNat, Nat.shiftRight_zero]
  have hcode : (opcode i).toNat = (encode i).toNat := by cases i <;> rfl
  apply BitVec.eq_of_toNat_eq
  omega

theorem decode_encode (i : Instr) : decode (encode i) = .ok i := by
  cases i <;> rfl

theorem instr_of_engineOp {i : Instr} {op : EngineOp} (h : engineOp i = some op) : op.instr = i := by
  cases i <;> cases h <;> rfl

theorem tableWord_toNat (w : Word) : tableWord 32 w.toNat = w := by
  rw [tableWord, Nat.mod_eq_of_lt w.isLt, BitVec.ofNat_toNat, BitVec.setWidth_eq]

end Sys2Proof.Machine
end

section
/-! SUPPORT. What one turn of the machine can do, said once, and IRQ after it (R13, R46, R72). -/

namespace Sys2Proof.Machine

/-- One turn of the machine by what it does to the state, its event being off the list (R13, R72): the engine's turn,
the reset input, or a host access by its outcome. -/
inductive Turn (s : State) : State → Prop where
  /-- The engine has its turn and no command is pending. -/
  | idles (hidle : s.eng = .idle) : Turn s s.settleIrq
  /-- The engine completes the pending command without error. -/
  | completes {op : EngineOp} {s' : State} (hop : s.eng = .pending op) (h : commandResult op s = .ok s') :
      Turn s s'.completeOk
  /-- The engine completes the pending command with an error. -/
  | fails {op : EngineOp} {c : ErrorCode} (hop : s.eng = .pending op)
      (h : commandResult op s = .error (.raise c)) : Turn s (s.errorEntry c)
  | hardResets : Turn s s.hardReset
  /-- A read or a bus error: only the port answers. -/
  | answers (r : Response) (d : Nat) : Turn s ((s.respond r).draw d)
  /-- A write is dropped because BUSY = 1. -/
  | drops : Turn s (s.dropWrite.respond .written)
  /-- The word of an engine command is written to CMD. -/
  | accepts {op : EngineOp} {w : Word} (hidle : s.eng = .idle) (h : decode w = .ok op.instr) :
      Turn s (((s.accept (opField w)).start op).respond .written)
  | runsNop : Turn s ((s.accept (opcode .nop)).completeOk.respond .written)
  | softResets : Turn s (s.softReset.respond .written)
  /-- A word that is no command is written to CMD. -/
  | illegalWord (op : BitVec 4) : Turn s ((s.illegalCommand op).respond .written)
  /-- A write of anything but CMD while BUSY = 0. -/
  | writes {addr : BusAddr} {width : Width} {tg : Target} (w : Word) (hidle : s.eng = .idle)
      (h : target s.config addr width = some tg) :
      Turn s ((s.writeTarget tg width.bytes w).respond .written)

theorem turn_of_engineTurn {s t : State} (h : engineTurn s = .next t) : Turn s t := by
  rcases engineTurn_cases s with ⟨hidle, ht⟩ | ⟨op, hop, ht⟩
  · cases ht.symm.trans h
    exact .idles hidle
  · rcases exec_engine_next (ht.symm.trans h) with ⟨s', hr, -, rfl⟩ | ⟨c, hr, rfl⟩
    · exact .completes hop hr
    · exact .fails hop hr

theorem turn_of_cmdWrite {w : Word} {s u : State} (h : cmdWrite w s = .next u) : Turn s (u.respond .written) := by
  rcases cmdWrite_next h with
    ⟨-, rfl⟩ | ⟨-, rfl⟩ | ⟨hb, op, hd, rfl⟩ | ⟨-, rfl⟩ | ⟨-, rfl⟩ | ⟨-, rfl⟩
  · exact .softResets
  · exact .drops
  · exact .accepts ((State.busy_eq_false_iff s).mp hb) hd
  · exact .runsNop
  · exact .softResets
  · exact .illegalWord _

theorem turn_of_hostAccess {a : Access} {s t : State} (h : hostAccess a s = .next t) : Turn s t := by
  rcases hostAccess_next h with
    ⟨r, rfl⟩ | ⟨addr, width, tg, -, rfl⟩ | ⟨-, rfl⟩ | ⟨w, u, hu, rfl⟩ | ⟨addr, width, w, tg, htg, hb, rfl⟩
  · exact .answers r 0
  · obtain ⟨r, d, hr⟩ := hostRead_eq s tg width.bytes
    rw [hr]
    exact .answers r d
  · exact .drops
  · exact turn_of_cmdWrite hu
  · exact .writes w ((State.busy_eq_false_iff s).mp hb) htg

/-- A step is one turn from the state whose event is taken off the list. -/
theorem turn_of_step {s t : State} (h : step s = .next t) : ∃ rest, Turn { s with inputs := rest } t := by
  rcases step_cases s with ⟨hi, hs⟩ | ⟨rest, -, hs⟩ | ⟨a, rest, -, hs⟩ | ⟨rest, -, hs⟩
  · exact ⟨s.inputs, turn_of_engineTurn (hs.symm.trans h)⟩
  · exact ⟨rest, turn_of_engineTurn (hs.symm.trans h)⟩
  · exact ⟨rest, turn_of_hostAccess (hs.symm.trans h)⟩
  · cases hs.symm.trans h
    exact ⟨rest, .hardResets⟩

/-- Every turn ends with IRQ at its level (R46). -/
theorem Turn.irq_eq {s t : State} (h : Turn s t) : t.irq = t.irqLevel := by
  cases h <;> rfl

/-- Settles O42: every turn ends with IRQ at its level. -/
theorem irqFollowsDone : Obligations.IrqFollowsDone :=
  ⟨fun _ _ h => (turn_of_step h).elim fun _ hturn => hturn.irq_eq, rfl⟩

end Sys2Proof.Machine
end

section
/-! SUPPORT. The invariant in its parts, data and STATUS, and each part after every turn. -/

namespace Sys2Proof.Machine

/-- Canonical, and inside a window of `n` bytes (R38, R39). -/
def Memory.fits (n : Nat) (m : Memory) : Prop := m.wf ∧ m.below n

theorem Memory.fits_nil (n : Nat) : Memory.fits n [] := ⟨.nil, by simp⟩

theorem Memory.fits_anyBytes (d n : Nat) : Memory.fits n (anyBytes d n) := ⟨anyBytes_wf d n, anyBytes_below d n⟩

theorem Memory.fits.writeBytes {m : Memory} {n k : Nat} {bs : List Byte} (hm : Memory.fits n m)
    (hk : k + bs.length ≤ n) : Memory.fits n (Memory.writeBytes m k bs) :=
  ⟨Memory.writeBytes_wf hm.1 k bs, Memory.writeBytes_below hm.2 hk⟩

/-- The bounds the rules of the result registers give (R29 to R34). -/
structure Results.bounded (p : Params) (r : Results) : Prop where
  totalBits : r.totalBits.toNat ≤ 65535
  termBits : r.termBits.toNat ≤ 4
  dCount : r.dCount.toNat ≤ p.nCw
  cwCount : r.cwCount.toNat ≤ p.nCw
  nBlocks : r.nBlocks.toNat ≤ p.nCw
  eccR : r.eccR.toNat ≤ p.nCw

theorem Results.bounded_reset (p : Params) : Results.reset.bounded p := by
  constructor <;> simp [Results.reset]

/-- The part of the invariant about the memories and the result registers. -/
def State.dataOk (s : State) : Prop :=
  (Memory.fits (4 * s.config.nBf) s.bfm ∧ bfmReservedClear s.bfm) ∧ Memory.fits s.config.nCw s.cwm ∧
    Memory.fits mmBytes s.mm ∧ s.results.bounded s.config

/-- The part of the invariant about STATUS (R25, R204). -/
def State.statusOk (s : State) : Prop :=
  (s.status.err = false ↔ s.status.ecode = .none) ∧ s.pendingOk

/-- The invariant is its parts: data, STATUS, and IRQ at its level. -/
theorem invariant_iff (s : State) : Invariant s ↔ s.dataOk ∧ s.statusOk ∧ s.irq = s.irqLevel := by
  constructor
  · rintro ⟨b1, b2, b3, c1, c2, m1, m2, he, hi, hp, r1, r2, r3, r4, r5, r6⟩
    exact ⟨⟨⟨⟨b1, b2⟩, b3⟩, ⟨c1, c2⟩, ⟨m1, m2⟩, r1, r2, r3, r4, r5, r6⟩, ⟨he, hp⟩, hi⟩
  · rintro ⟨⟨⟨⟨b1, b2⟩, b3⟩, ⟨c1, c2⟩, ⟨m1, m2⟩, r1, r2, r3, r4, r5, r6⟩, ⟨he, hp⟩, hi⟩
    exact ⟨b1, b2, b3, c1, c2, m1, m2, he, hi, hp, r1, r2, r3, r4, r5, r6⟩

/-! The data. -/

/-- SRESET leaves data that meet the invariant, whatever it aborts (R202). -/
theorem State.dataOk_softReset {s : State} (hd : s.dataOk) : s.softReset.dataOk := by
  obtain ⟨hb, hc, hm, -⟩ := hd
  obtain ⟨hcwm, hmm⟩ := State.abortPending_memories s
  refine ⟨by simpa [State.softReset] using hb, ?_, ?_, Results.bounded_reset _⟩
  · simp only [State.softReset, State.cwm_resetRegisters, State.config_resetRegisters, State.config_abortPending]
    rcases hcwm with h | ⟨d, h⟩ <;> rw [h]
    · exact hc
    · exact Memory.fits_anyBytes d _
  · simp only [State.softReset, State.mm_resetRegisters]
    rcases hmm with h | ⟨d, h⟩ <;> rw [h]
    · exact hm
    · exact Memory.fits_anyBytes d _

/-- The reset input leaves data that meet the invariant from every state (R260). -/
theorem State.dataOk_hardReset (s : State) : s.hardReset.dataOk :=
  ⟨⟨Memory.fits_nil _, by simp⟩, Memory.fits_nil _, Memory.fits_nil _, Results.bounded_reset _⟩

/-- The highest byte of an entry's bus word holds the five bits of WIDTH below three zeros (R95). -/
theorem wordOfEntry_highByte_lt (e : Entry) : ((wordOfEntry e).extractLsb' 24 8).toNat < 32 := by
  have hw : (wordOfEntry e).toNat < 2 ^ 29 := by
    refine (toNat_append_eq 8 24 _ _).trans_lt ?_
    rw [toNat_append_eq]
    have := e.width.isLt
    have := e.value.isLt
    simp only [BitVec.toNat_ofNat]
    omega
  rw [BitVec.extractLsb'_toNat, Nat.shiftRight_eq_div_pow]
  omega

theorem bfmReservedClear_writeEntry {bfm : Memory} (h : bfmReservedClear bfm) (i : Nat) (e : Entry) :
    bfmReservedClear (writeEntry bfm i e) := by
  intro c hc hmod
  rcases Memory.mem_writeBytes hc with ⟨j, hj, rfl⟩ | hc
  · have hj4 : j < 4 := by simpa using hj
    obtain rfl : j = 3 := by simp only at hmod; omega
    rw [bytesOfWord_getElem]
    exact wordOfEntry_highByte_lt e
  · exact h c hc hmod

/-- A host write that the bus map takes stays inside the window it writes (R62 to R64). -/
theorem State.dataOk_writeTarget {s : State} {addr : BusAddr} {width : Width} {tg : Target} (hd : s.dataOk)
    (h : target s.config addr width = some tg) (w : Word) : (s.writeTarget tg width.bytes w).dataOk := by
  have ⟨⟨hb, hr⟩, hc, hm, hres⟩ := hd
  rcases target_cases h with ⟨r, rfl, -⟩ | ⟨i, rfl, -, hi, -⟩ | ⟨k, rfl, hk, -⟩ | ⟨k, rfl, hk, -⟩
  · cases r with
    | none => exact hd
    | some r => cases r <;> exact hd
  · exact ⟨⟨hb.writeBytes (by simp; omega), bfmReservedClear_writeEntry hr i _⟩, hc, hm, hres⟩
  · exact ⟨⟨hb, hr⟩, hc.writeBytes (by simpa using hk), hm, hres⟩
  · exact ⟨⟨hb, hr⟩, hc, hm.writeBytes (by simpa using hk), hres⟩

theorem toNat_ofNat_le (w n : Nat) : (BitVec.ofNat w n).toNat ≤ n := by
  rw [BitVec.toNat_ofNat]
  exact Nat.mod_le _ _

/-- PACK writes D codewords and results within their bounds (R110, R116). -/
theorem dataOk_packWrites {s : State} {es : List Entry} (hd : s.dataOk) (h : PackReady s es) :
    (packWrites s es).dataOk := by
  obtain ⟨hb, hc, hm, hr⟩ := hd
  have hlen : (dataCodewords es s.capacity).length = s.dataCount :=
    (dataCodewords_length h.capacity_bytes h.fits).trans s.dataCount_eq.symm
  have hcap := s.capacity_lt
  have hfits := h.fits
  refine ⟨hb, hc.writeBytes (by rw [hlen, Nat.zero_add]; exact h.capacity_fits), hm,
    (toNat_ofNat_le _ _).trans (by omega), (toNat_ofNat_le _ _).trans (terminatorWidth_le _ _),
    (toNat_ofNat_le _ _).trans h.capacity_fits, (toNat_ofNat_le _ _).trans h.capacity_fits, hr.nBlocks, hr.eccR⟩

/-- The parity codewords behind the data codewords end inside CWM (R142, R148). -/
theorem RsTablesConsistent.parity_fits {s : State} {rec : LayoutRecord} {rows : List (List Byte)}
    (h : RsTablesConsistent s rec rows) :
    s.dataCount + rec.blockOrder.length * rec.eccCodewordsPerBlock ≤ s.config.nCw := by
  rw [← h.covers, ← totalCodewords_eq h.block_data]
  exact h.fits

/-- RSENC writes its parity codewords inside CWM and results within their bounds (R147, R148). -/
theorem dataOk_rsencWrites {s t : State} {rec : LayoutRecord} {rows : List (List Byte)} (hd : s.dataOk)
    (ht : RsTablesConsistent s rec rows) (h : rsencWrites s rec rows = .ok t) : t.dataOk := by
  obtain ⟨hb, hc, hm, hr⟩ := hd
  obtain ⟨ecc, hlen, rfl⟩ := rsencWrites_ok h
  have hfit := ht.parity_fits
  have hblocks : rec.blockOrder.length ≤ rec.blockOrder.length * rec.eccCodewordsPerBlock :=
    Nat.le_mul_of_pos_right _ ht.ecc_pos
  have hecc : rec.eccCodewordsPerBlock ≤ rec.blockOrder.length * rec.eccCodewordsPerBlock :=
    Nat.le_mul_of_pos_left _ ht.blocks_pos
  have hsum : ∀ n, n ≤ rec.blockOrder.length * rec.eccCodewordsPerBlock → n ≤ s.config.nCw := by omega
  exact ⟨hb, hc.writeBytes (by rw [hlen]; exact hfit), hm, hr.totalBits, hr.termBits,
    (toNat_ofNat_le _ _).trans (Nat.le_of_add_right_le hfit), (toNat_ofNat_le _ _).trans hfit,
    (toNat_ofNat_le _ _).trans (hsum _ hblocks), (toNat_ofNat_le _ _).trans (hsum _ hecc)⟩

/-- PLACE writes modules inside MM and CWCOUNT within its bound (R171, R172). -/
theorem dataOk_placeWrites {s t : State} {rec : LayoutRecord} (hd : s.dataOk) (hv : s.version ≤ 40)
    (ht : PlaceTablesConsistent s rec) (h : placeWrites s rec = .ok t) : t.dataOk := by
  obtain ⟨hb, hc, -, hr⟩ := hd
  obtain ⟨cs, hcs, rfl⟩ := placeWrites_ok h
  exact ⟨hb, hc, ⟨builtMatrix_wf _ _ _, builtMatrix_below hv ht hcs.count⟩, hr.totalBits, hr.termBits, hr.dCount,
    (toNat_ofNat_le _ _).trans ht.fits, hr.nBlocks, hr.eccR⟩

/-- What an engine command writes meets the invariant; ENCODE by its three phases (R201). -/
theorem dataOk_commandResult {op : EngineOp} {s t : State} (hd : s.dataOk) (h : commandResult op s = .ok t) :
    t.dataOk := by
  cases op with
  | pack =>
    obtain ⟨es, hready, rfl⟩ := (packResult_ok_iff s t).mp h
    exact dataOk_packWrites hd hready
  | rsenc =>
    obtain ⟨rec, rows, data, hready, h⟩ := rsencResult_ok h
    exact dataOk_rsencWrites hd hready.tables h
  | place =>
    obtain ⟨rec, cs, hready, h⟩ := placeResult_ok h
    exact dataOk_placeWrites hd hready.version_high hready.tables h
  | encode =>
    obtain ⟨es, rec, rows, hready, h⟩ := encodeResult_ok h
    obtain ⟨s2, h2, h3⟩ := bind_eq_ok.mp h
    have hsame : SameOutside s s2 := (packWrites_same s es).trans (rsencWrites_same h2).1
    have hd2 : s2.dataOk :=
      dataOk_rsencWrites (dataOk_packWrites hd hready.pack) (hready.rs.congr rfl rfl) h2
    refine dataOk_placeWrites hd2 ?_ (hready.place.congr hsame.ctl hsame.config) h3
    rw [State.version, hsame.ctl]
    exact hready.version_high

/-- Only the commands, the resets and a host write reach the data; each keeps them in bounds. -/
theorem Turn.dataOk {s t : State} (h : Turn s t) (hd : s.dataOk) : t.dataOk := by
  cases h with
  | idles => exact hd
  | completes _ h =>
    have hd' := dataOk_commandResult hd h
    exact hd'
  | fails => exact hd
  | hardResets => exact s.dataOk_hardReset
  | answers => exact hd
  | drops => exact hd
  | accepts => exact hd
  | runsNop => exact hd
  | softResets => exact State.dataOk_softReset hd
  | illegalWord => exact hd
  | writes w _ h => exact State.dataOk_writeTarget hd h w

/-! STATUS. -/

/-- The errors a computation can raise are among `cs`; it may also succeed or meet the model fault. -/
def RaisesOnly {α : Type} (cs : List ErrorCode) (x : Except Stop α) : Prop :=
  ∀ c, x = .error (.raise c) → c ∈ cs

theorem RaisesOnly.bind {α β : Type} {cs : List ErrorCode} {x : Except Stop α} {f : α → Except Stop β}
    (hx : RaisesOnly cs x) (hf : ∀ a, RaisesOnly cs (f a)) : RaisesOnly cs (x >>= f) := fun c h => by
  rcases bind_eq_error.mp h with h | ⟨a, -, h⟩
  · exact hx c h
  · exact hf a c h

theorem raisesOnly_ok {α : Type} (cs : List ErrorCode) (a : α) : RaisesOnly cs (.ok a) := nofun

theorem raisesOnly_failIf {cs : List ErrorCode} {c : ErrorCode} (hc : c ∈ cs) (cond : Bool) :
    RaisesOnly cs (failIf cond c) := fun d h => by
  cases cond <;> cases h
  exact hc

theorem raisesOnly_orMalformed {α : Type} {cs : List ErrorCode} (hc : .malformedTable ∈ cs) (x : Option α) :
    RaisesOnly cs (orMalformed x) := fun d h => by
  cases x <;> cases h
  exact hc

theorem raisesOnly_checkedEntries {cs : List ErrorCode} (hc : .badBitfield ∈ cs) (s : State) :
    RaisesOnly cs s.checkedEntries := fun d h => by
  rcases State.checkedEntries_error h with h | ⟨k, h⟩ <;> cases h
  exact hc

theorem raisesOnly_placeWrites (cs : List ErrorCode) (s : State) (rec : LayoutRecord) :
    RaisesOnly cs (placeWrites s rec) := fun c h => by
  obtain ⟨k, -, he, -⟩ := placeWrites_error h
  cases he

theorem raisesOnly_rsencWrites (cs : List ErrorCode) (s : State) (rec : LayoutRecord) (rows : List (List Byte)) :
    RaisesOnly cs (rsencWrites s rec rows) := fun c h => by
  obtain ⟨k, -, he, -⟩ := rsencWrites_error h
  cases he

/-- The codes each engine command can report (R221). -/
def EngineOp.codes : EngineOp → List ErrorCode
  | .pack => [.badBitfield, .emptyData, .badCapacity, .capacityOverflow]
  | .rsenc => [.versionRange, .badCapacity, .malformedTable]
  | .place => [.versionRange, .malformedTable]
  | .encode => [.badBitfield, .emptyData, .versionRange, .badCapacity, .capacityOverflow, .malformedTable]

/-- Each command raises the codes of its own checks only (R221). -/
theorem raisesOnly_commandResult (op : EngineOp) (s : State) : RaisesOnly op.codes (commandResult op s) := by
  cases op with
  | pack =>
    exact (raisesOnly_checkedEntries (by decide) s).bind fun es =>
      (raisesOnly_failIf (by decide) _).bind fun _ => (raisesOnly_failIf (by decide) _).bind fun _ =>
      (raisesOnly_failIf (by decide) _).bind fun _ => raisesOnly_ok _ _
  | rsenc =>
    exact (raisesOnly_failIf (by decide) _).bind fun _ => (raisesOnly_failIf (by decide) _).bind fun _ =>
      (raisesOnly_orMalformed (by decide) _).bind fun _ => raisesOnly_rsencWrites _ _ _ _
  | place =>
    exact (raisesOnly_failIf (by decide) _).bind fun _ =>
      (raisesOnly_orMalformed (by decide) _).bind fun _ => raisesOnly_placeWrites _ _ _
  | encode =>
    exact (raisesOnly_checkedEntries (by decide) s).bind fun es =>
      (raisesOnly_failIf (by decide) _).bind fun _ => (raisesOnly_failIf (by decide) _).bind fun _ =>
      (raisesOnly_failIf (by decide) _).bind fun _ => (raisesOnly_failIf (by decide) _).bind fun _ =>
      (raisesOnly_orMalformed (by decide) _).bind fun _ => (raisesOnly_rsencWrites _ _ _ _).bind fun _ =>
      raisesOnly_placeWrites _ _ _

theorem commandResult_code_ne_none {op : EngineOp} {s : State} {c : ErrorCode}
    (h : commandResult op s = .error (.raise c)) : c ≠ .none := by
  rintro rfl
  have hmem := raisesOnly_commandResult op s _ h
  cases op <;> revert hmem <;> decide

theorem State.pendingOk_of_idle {s : State} (h : s.eng = .idle) : s.pendingOk := fun op hop => by
  cases h.symm.trans hop

theorem Status.writeOneClear_ecode_iff {st : Status} (h : st.err = false ↔ st.ecode = .none) (w : Word) :
    (st.writeOneClear w).err = false ↔ (st.writeOneClear w).ecode = .none := by
  unfold Status.writeOneClear
  cases w.getLsbD 2
  · simpa using h
  · simp

/-- Of the writes while BUSY = 0, only the one to STATUS reaches the report (R69, R232). -/
theorem State.statusOk_writeTarget {s : State} (hs : s.statusOk) (hidle : s.eng = .idle) (tg : Target) (n : Nat)
    (w : Word) : (s.writeTarget tg n w).statusOk := by
  cases tg with
  | register r =>
    cases r with
    | none => exact hs
    | some r =>
      cases r with
      | status => exact ⟨Status.writeOneClear_ecode_iff hs.1 w, State.pendingOk_of_idle hidle⟩
      | _ => exact hs
  | _ => exact hs

/-- A completion reports ERR with its code and ends the pending command, an acceptance clears the report
(R204, R205). -/
theorem Turn.statusOk {s t : State} (h : Turn s t) (hs : s.statusOk) : t.statusOk := by
  cases h with
  | idles => exact hs
  | completes => exact ⟨by simp, State.pendingOk_of_idle rfl⟩
  | fails _ h => exact ⟨by simpa using commandResult_code_ne_none h, State.pendingOk_of_idle rfl⟩
  | hardResets => exact ⟨by simp [Status.reset], State.pendingOk_of_idle rfl⟩
  | answers => exact hs
  | drops => exact hs
  | accepts _ h =>
    refine ⟨by simp, fun op' hop => ?_⟩
    cases hop
    exact ⟨rfl, rfl, opField_of_decode h⟩
  | runsNop => exact ⟨by simp, State.pendingOk_of_idle rfl⟩
  | softResets => exact ⟨by simp [State.softReset, Status.reset], State.pendingOk_of_idle rfl⟩
  | illegalWord => exact ⟨by simp [State.illegalCommand], State.pendingOk_of_idle rfl⟩
  | writes w hidle h => exact State.statusOk_writeTarget hs hidle _ _ w

/-! The invariant whole. -/

/-- Settles O57: each part of the invariant holds after every turn; IRQ's level needs nothing of the state before. -/
theorem stepKeepsInvariant : Obligations.StepKeepsInvariant := by
  intro s t hinv hstep
  obtain ⟨hd, hs, -⟩ := (invariant_iff s).mp hinv
  obtain ⟨rest, hturn⟩ := turn_of_step hstep
  exact (invariant_iff t).mpr ⟨hturn.dataOk hd, hturn.statusOk hs, hturn.irq_eq⟩

/-- Settles O56: the machine after reset has the data any hard reset leaves, no report and no pending command. -/
theorem resetMeetsInvariant : Obligations.ResetMeetsInvariant :=
  (invariant_iff _).mpr
    ⟨State.reset.dataOk_hardReset, ⟨by decide, State.pendingOk_of_idle rfl⟩, rfl⟩

end Sys2Proof.Machine
end

section
/-! SUPPORT. The register page, STATUS and the values after reset. -/

namespace Sys2Proof.Machine

/-- The word the register page reads as at a register, 0 where none stands (R61). -/
def State.pageWord (s : State) : Option Register → Word
  | none => 0
  | some r => s.readRegister r

theorem State.hostRead_register (s : State) (r : Option Register) (n : Nat) :
    s.hostRead (.register r) n = s.respond (.data (s.pageWord r)) := by
  cases r <;> rfl

theorem State.respond_eq (s : State) (r : Response) :
    s.respond r = { s with response := r, irq := s.ctl.ie && s.status.done } := rfl

theorem readRegister_status_toNat (s : State) : (s.readRegister .status).toNat =
    s.busy.toNat + 2 * s.status.done.toNat + 4 * s.status.err.toNat + 8 * s.status.werr.toNat +
      256 * s.status.ecode.code.toNat + 65536 * s.status.lastOp.toNat := statusWord_toNat s

theorem State.sideValue_eq (s : State) : s.sideValue =
    if 1 ≤ s.ctl.version.toNat ∧ s.ctl.version.toNat ≤ 40 then 17 + 4 * s.ctl.version.toNat else 0 := by
  simp [State.sideValue, State.version, sideOf]

/-- Settles O45: the port answers with the page's word, whose number is taken register by register in the order of
their offsets, the RAZ/WI rest of the page last. -/
theorem registerReadValues : Obligations.RegisterReadValues := by
  intro s addr hpage hal
  refine ⟨s.pageWord (registerAt addr.toNat), ?_, ?_⟩
  · rw [perform_read (target_register s.config hpage hal), State.hostRead_register, State.respond_eq]
  · generalize addr.toNat = a
    unfold registerAt
    split
    · rfl
    · exact readRegister_ctrl_toNat s
    · rfl
    · exact readRegister_status_toNat s
    · exact readRegister_cfg_toNat s
    · exact toNat_zero16_append _
    · exact toNat_zero16_append _
    · rfl
    · exact toNat_zero29_append _
    · exact toNat_zero16_append _
    · exact toNat_zero16_append _
    · exact toNat_zero16_append _
    · exact toNat_zero16_append _
    · exact (readRegister_side_toNat s).trans s.sideValue_eq
    · simp_all [State.pageWord]

/-- The control registers after a write of the register page (R23, R26 to R28). -/
def Control.written (c : Control) (w : Word) : Option Register → Control
  | some .ctrl => { c with ie := w.getLsbD 0 }
  | some .cfg => { c with version := w.extractLsb' 0 6, level := w.extractLsb' 8 2 }
  | some .maxDataBits => { c with maxDataBits := w.extractLsb' 0 16 }
  | some .bfCount => { c with bfCount := w.extractLsb' 0 16 }
  | _ => c

/-- A write of the register page reaches nothing but the control registers, STATUS apart (R69). -/
theorem State.writeTarget_register (s : State) {r : Option Register} (hst : r ≠ some .status) (n : Nat) (w : Word) :
    s.writeTarget (.register r) n w = { s with ctl := s.ctl.written w r }.settleIrq := by
  cases r with
  | none => rfl
  | some r =>
    cases r with
    | status => exact absurd rfl hst
    | _ => rfl

theorem registerAt_eq_cmd_iff (a : Nat) : registerAt a = some .cmd ↔ a = 0x008 := by
  unfold registerAt
  split <;> simp_all

theorem registerAt_eq_status_iff (a : Nat) : registerAt a = some .status ↔ a = 0x00C := by
  unfold registerAt
  split <;> simp_all

/-- The fields of the control registers after a write at offset `a` of the register page, as numbers. -/
theorem Control.written_fields (c : Control) (w : Word) (a : Nat) :
    (c.written w (registerAt a)).ie = (if a = 0x004 then w.getLsbD 0 else c.ie) ∧
    (c.written w (registerAt a)).version.toNat = (if a = 0x010 then w.toNat % 64 else c.version.toNat) ∧
    (c.written w (registerAt a)).level.toNat = (if a = 0x010 then w.toNat / 256 % 4 else c.level.toNat) ∧
    (c.written w (registerAt a)).maxDataBits.toNat =
      (if a = 0x014 then w.toNat % 65536 else c.maxDataBits.toNat) ∧
    (c.written w (registerAt a)).bfCount.toNat = (if a = 0x018 then w.toNat % 65536 else c.bfCount.toNat) := by
  unfold registerAt
  split <;> simp_all [Control.written, Nat.shiftRight_eq_div_pow]

/-- Settles O47: the write is `Control.written` at the register of its offset. -/
theorem registerWriteEffects : Obligations.RegisterWriteEffects := by
  intro s addr w hidle hpage hal hcmd hst
  have htg := target_register s.config hpage hal
  have hcmd' : Target.register (registerAt addr.toNat) ≠ .register (some .cmd) := fun h =>
    hcmd ((registerAt_eq_cmd_iff _).mp (Target.register.inj h))
  have hst' : registerAt addr.toNat ≠ some .status := fun h => hst ((registerAt_eq_status_iff _).mp h)
  refine ⟨_, perform_write hidle htg hcmd', ?_⟩
  rw [State.writeTarget_register s hst']
  exact ⟨rfl, s.ctl.written_fields w addr.toNat⟩

/-! STATUS. -/

/-- Settles O43: the write reaches STATUS, where it is `Status.writeOneClear`. -/
theorem statusWriteOneClears : Obligations.StatusWriteOneClears := by
  intro s w hidle
  have htg : target s.config 0x00000C .w32 = some (.register (some .status)) :=
    target_register s.config (by decide) (by decide)
  refine ⟨_, perform_write hidle htg (by decide), rfl, rfl, rfl, rfl, rfl, fun h => if_pos h,
    fun h => if_neg (ne_true_of_eq_false h)⟩

/-- STATUS.BUSY stands in bit 0 (R25). -/
theorem statusWord_getLsbD_zero (s : State) : s.statusWord.getLsbD 0 = s.busy := by
  have hodd : s.statusWord.toNat % 2 = s.busy.toNat := by
    rw [statusWord_toNat]
    have := s.busy.toNat_lt
    omega
  rw [BitVec.getLsbD, Nat.testBit_zero, hodd]
  cases s.busy <;> rfl

/-- Settles O46: the codes by evaluation, BUSY as bit 0 of the word STATUS reads as. -/
theorem statusFieldCodes : Obligations.StatusFieldCodes :=
  ⟨by decide, fun s => by rw [statusWord_getLsbD_zero, State.busy_eq_true_iff]⟩

/-! Reset. -/

/-- Settles O54: every value is that of `State.reset`, none of them resting on its parameters. -/
theorem resetValues : Obligations.ResetValues :=
  ⟨rfl, rfl, rfl, rfl, rfl, fun _ => ⟨rfl, rfl, rfl⟩, rfl, rfl⟩

end Sys2Proof.Machine
end

section
/-! SUPPORT. Which command writes which memory. -/

namespace Sys2Proof.Machine

/-- PACK and RSENC do not write MM, PLACE does not write CWM (R37 to R39, R94). -/
theorem commandResult_memories {op : EngineOp} {s t : State} (h : commandResult op s = .ok t) :
    (op = .place → t.cwm = s.cwm) ∧ (op = .pack ∨ op = .rsenc → t.mm = s.mm) := by
  cases op with
  | pack =>
    obtain ⟨es, -, rfl⟩ := (packResult_ok_iff s t).mp h
    exact ⟨nofun, fun _ => rfl⟩
  | rsenc =>
    obtain ⟨rec, rows, data, -, h⟩ := rsencResult_ok h
    exact ⟨nofun, fun _ => (rsencWrites_same h).2⟩
  | place =>
    obtain ⟨rec, cs, -, h⟩ := placeResult_ok h
    exact ⟨fun _ => (placeWrites_same h).2, by simp⟩
  | encode => exact ⟨nofun, by simp⟩

/-- No engine command writes BFM, and none writes a memory that is not its own, with or without an error. -/
theorem exec_engine_memories {op : EngineOp} {s t : State} (h : exec op.instr s = .next t) :
    t.bfm = s.bfm ∧ (op = .place → t.cwm = s.cwm) ∧ (op = .pack ∨ op = .rsenc → t.mm = s.mm) := by
  rcases exec_engine_next h with ⟨s', hr, hsame, rfl⟩ | ⟨c, -, rfl⟩
  · have hmem := commandResult_memories hr
    exact ⟨hsame.bfm, hmem⟩
  · exact ⟨rfl, fun _ => rfl, fun _ => rfl⟩

/-- NOP writes no memory, whether it is dropped or completes (R200, R204). -/
theorem execNop_memories {s t : State} (h : execNop s = .next t) : t.bfm = s.bfm ∧ t.cwm = s.cwm ∧ t.mm = s.mm := by
  unfold execNop at h
  split at h <;> cases h <;> exact ⟨rfl, rfl, rfl⟩

/-- An abort leaves CWM alone unless the pending command writes it (R202). -/
theorem State.cwm_abortPending_of_not_writing {s : State} (h : s.eng = .idle ∨ s.eng = .pending .place) :
    s.abortPending.cwm = s.cwm := by
  rcases h with h | h <;> simp [State.abortPending, h]

/-- An abort leaves MM alone unless the pending command writes it (R202). -/
theorem State.mm_abortPending_of_not_writing {s : State} (hplace : s.eng ≠ .pending .place)
    (hencode : s.eng ≠ .pending .encode) : s.abortPending.mm = s.mm := by
  unfold State.abortPending
  split
  · rfl
  · rfl
  · rfl
  · exact absurd ‹_› hplace
  · exact absurd ‹_› hencode

/-- Settles O59: NOP writes nothing, SRESET what its abort overwrites, an engine command the memories it names. -/
theorem commandsWriteTheirMemoriesOnly : Obligations.CommandsWriteTheirMemoriesOnly := by
  intro i s t h
  cases i with
  | nop =>
    obtain ⟨hb, hc, hm⟩ := execNop_memories h
    exact ⟨hb, fun _ => hc, fun _ => hm, nofun, nofun⟩
  | sreset =>
    obtain rfl : s.softReset = t := Host.Outcome.next.inj h
    exact ⟨s.bfm_abortPending, by simp, by simp, fun _ => State.cwm_abortPending_of_not_writing,
      fun _ => State.mm_abortPending_of_not_writing⟩
  | pack =>
    obtain ⟨hb, -, hm⟩ := exec_engine_memories (op := .pack) h
    exact ⟨hb, by simp, fun _ => hm (.inl rfl), nofun, nofun⟩
  | rsenc =>
    obtain ⟨hb, -, hm⟩ := exec_engine_memories (op := .rsenc) h
    exact ⟨hb, by simp, fun _ => hm (.inr rfl), nofun, nofun⟩
  | place =>
    obtain ⟨hb, hc, -⟩ := exec_engine_memories (op := .place) h
    exact ⟨hb, fun _ => hc rfl, by simp, nofun, nofun⟩
  | encode =>
    obtain ⟨hb, -, -⟩ := exec_engine_memories (op := .encode) h
    exact ⟨hb, by simp, by simp, nofun, nofun⟩

end Sys2Proof.Machine
end

section
/-! SUPPORT. How a step comes to run a command. -/

namespace Sys2Proof.Machine

/-- A step with an event waiting performs it, from the state with the event off the list. -/
theorem step_of_inputs {s : State} {e : Event} {rest : List Event} (h : s.inputs = e :: rest) :
    step s = perform e { s with inputs := rest } := by
  obtain ⟨⟩ := s
  cases h
  rfl

theorem engineTurn_pending {s : State} {op : EngineOp} (h : s.eng = .pending op) :
    engineTurn s = exec op.instr s := by
  simp [engineTurn, h]

/-- A command of the host's step runs when its word is written to CMD; while BUSY = 1 only SRESET does (R204). -/
theorem cmdWrite_hostCommand {s : State} {w : Word} {i : Instr} (hd : decode w = .ok i) (hi : engineOp i = none)
    (hb : s.busy = false ∨ i = .sreset) : cmdWrite w s = exec i s := by
  by_cases hbusy : s.busy = true
  · obtain rfl : i = .sreset := hb.resolve_left (by simp [hbusy])
    have hw : w = 0x0000000F#32 := eq_encode_of_decode hd
    rw [cmdWrite, if_pos hbusy, if_pos hw]
  · simp [cmdWrite, hbusy, hd, hi]

/-- The word of an engine command is accepted while BUSY = 0 (R204). -/
theorem cmdWrite_engineCommand {s : State} {w : Word} {i : Instr} {op : EngineOp} (hd : decode w = .ok i)
    (hi : engineOp i = some op) (hb : s.busy = false) : cmdWrite w s = .next ((s.accept (opcode i)).start op) := by
  simp [cmdWrite, hb, hd, hi, opField_of_decode hd]

theorem perform_hostCommand {s : State} {w : Word} {i : Instr} (hd : decode w = .ok i) (hi : engineOp i = none)
    (hb : s.busy = false ∨ i = .sreset) :
    perform (cmdWriteEvent w) s = onNext (fun t => t.respond .written) (exec i s) := by
  rw [perform_cmdWriteEvent, cmdWrite_hostCommand hd hi hb]

theorem perform_engineCommand {s : State} {w : Word} {i : Instr} {op : EngineOp} (hd : decode w = .ok i)
    (hi : engineOp i = some op) (hb : s.busy = false) :
    perform (cmdWriteEvent w) s = .next (((s.accept (opcode i)).start op).respond .written) := by
  rw [perform_cmdWriteEvent, cmdWrite_engineCommand hd hi hb, onNext_next]

/-- An engine command is placed as accepted, with the engine's turn next (log 11). -/
theorem withFetchWord_engineCommand (s : State) {i : Instr} {op : EngineOp} (hi : engineOp i = some op) :
    s.withFetchWord 32 (encode i).toNat =
      { (s.accept (opcode i)).start op with inputs := .engine :: s.inputs } := by
  simp only [State.withFetchWord, State.stageWord, tableWord_toNat, decode_encode, hi, opcode]

/-- A command of the host's step is placed as the write to CMD that comes next, with ENG = IDLE (log 11). -/
theorem withFetchWord_hostCommand (s : State) {i : Instr} (hi : engineOp i = none) :
    s.withFetchWord 32 (encode i).toNat =
      { s with eng := .idle, inputs := cmdWriteEvent (encode i) :: s.inputs } := by
  simp only [State.withFetchWord, State.stageWord, tableWord_toNat, decode_encode, hi, cmdWriteEvent]

/-- Settles O3: the write to CMD, the engine's turn with and without its event, and the two ways in which
`withFetchWord` places a command. -/
theorem stepRunsDecodedCommand : Obligations.StepRunsDecodedCommand := by
  refine ⟨fun s rest w i hin hd _ => ⟨fun hi hb => ?_, fun op hi hb => ?_⟩, fun s rest op hop hin => ?_,
    fun s op hop hin => ?_, fun s i op hi => ?_, fun s i hi => ?_⟩
  · exact (step_of_inputs hin).trans (perform_hostCommand hd hi hb)
  · exact (step_of_inputs hin).trans (perform_engineCommand hd hi hb)
  · exact (step_of_inputs hin).trans (engineTurn_pending hop)
  · simp only [step, nextTurn, hin, engineTurn_pending hop]
  · rw [withFetchWord_engineCommand s hi, step_of_inputs rfl, perform_engine, engineTurn_pending rfl,
      instr_of_engineOp hi]
    rfl
  · rw [withFetchWord_hostCommand s hi, step_of_inputs rfl, perform_hostCommand (decode_encode i) hi (.inl rfl)]

end Sys2Proof.Machine
end

section
/-! SUPPORT. What every turn keeps, and what a run over the waiting events comes to (R70, R72, R76). -/

namespace Sys2Proof.Machine

theorem State.writeTarget_config_inputs (s : State) (tg : Target) (n : Nat) (w : Word) :
    (s.writeTarget tg n w).config = s.config ∧ (s.writeTarget tg n w).inputs = s.inputs := by
  cases tg with
  | register r =>
    cases r with
    | none => exact ⟨rfl, rfl⟩
    | some r => cases r <;> exact ⟨rfl, rfl⟩
  | _ => exact ⟨rfl, rfl⟩

/-- No turn changes the parameters or the events that wait behind it (R76). -/
theorem Turn.config_inputs {s t : State} (h : Turn s t) : t.config = s.config ∧ t.inputs = s.inputs := by
  cases h with
  | completes _ h =>
    have hsame := commandResult_same h
    exact ⟨hsame.config, hsame.inputs⟩
  | softResets => exact ⟨s.config_abortPending, s.inputs_abortPending⟩
  | writes w => exact s.writeTarget_config_inputs _ _ w
  | _ => exact ⟨rfl, rfl⟩

/-- Settles O58: taking the event off the list keeps the parameters, and so does the turn. -/
theorem stepKeepsParameters : Obligations.StepKeepsParameters := by
  intro s t h
  obtain ⟨rest, hturn⟩ := turn_of_step h
  exact hturn.config_inputs.1

theorem turn_of_perform {e : Event} {s t : State} (h : perform e s = .next t) : Turn s t := by
  cases e with
  | engine => exact turn_of_engineTurn h
  | access a => exact turn_of_hostAccess h
  | hardReset =>
    cases h
    exact .hardResets

/-- A step takes exactly the first waiting event. -/
theorem inputs_of_step {s t : State} {e : Event} {rest : List Event} (hin : s.inputs = e :: rest)
    (h : step s = .next t) : t.inputs = rest :=
  (turn_of_perform ((step_of_inputs hin).symm.trans h)).config_inputs.2

/-- With no event waiting it is the engine's turn (R70, log 1). -/
theorem step_of_inputs_nil {s : State} (h : s.inputs = []) : step s = engineTurn s := by
  simp only [step, nextTurn, h]

/-- After its turn the engine is idle: it was, or it completed the pending command (R205). -/
theorem eng_of_engineTurn {s t : State} (h : engineTurn s = .next t) : t.eng = .idle := by
  rcases engineTurn_cases s with ⟨hidle, ht⟩ | ⟨op, -, ht⟩
  · cases ht.symm.trans h
    exact hidle
  · rcases exec_engine_next (ht.symm.trans h) with ⟨s', -, -, rfl⟩ | ⟨c, -, rfl⟩ <;> rfl

theorem engineTurn_ne_refused (s : State) (r : Refusal) : engineTurn s ≠ .refused r := by
  rcases engineTurn_cases s with ⟨-, ht⟩ | ⟨op, -, ht⟩
  · simp [ht]
  · rw [ht, exec_engine]
    exact completeCommand_ne_refused s _ r

/-- Every command has its meaning, so no step refuses (R220). -/
theorem step_ne_refused (s : State) (r : Refusal) : step s ≠ .refused r := by
  rcases step_cases s with ⟨-, hs⟩ | ⟨rest, -, hs⟩ | ⟨a, rest, -, hs⟩ | ⟨rest, -, hs⟩
  · rw [hs]
    exact engineTurn_ne_refused s r
  · rw [hs]
    exact engineTurn_ne_refused _ r
  · obtain ⟨t, ht⟩ := hostAccess_total a { s with inputs := rest }
    simp [hs, ht]
  · simp [hs]

/-! Runs. -/

theorem run_zero (s : State) : Sys2Proof.core.run 0 s = .next s := rfl

theorem run_succ_of_next {s t : State} (k : Nat) (h : step s = .next t) :
    Sys2Proof.core.run (k + 1) s = Sys2Proof.core.run k t := by
  simp only [Host.Core.run, Sys2Proof.core, h]

theorem run_succ_of_fault {s : State} {f : Fault} (k : Nat) (h : step s = .fault f) :
    Sys2Proof.core.run (k + 1) s = .fault f := by
  simp only [Host.Core.run, Sys2Proof.core, h]

/-- A run goes on after its first step, or that step faulted. -/
theorem run_succ_cases (k : Nat) (s : State) :
    (∃ t, step s = .next t ∧ Sys2Proof.core.run (k + 1) s = Sys2Proof.core.run k t) ∨
    (∃ f, Sys2Proof.core.run (k + 1) s = .fault f) := by
  cases h : step s with
  | next t => exact .inl ⟨t, rfl, run_succ_of_next k h⟩
  | fault f => exact .inr ⟨f, run_succ_of_fault k h⟩
  | refused r => exact absurd h (step_ne_refused s r)

theorem run_ne_refused (k : Nat) (s : State) (r : Refusal) : Sys2Proof.core.run k s ≠ .refused r := by
  induction k generalizing s with
  | zero => simp [run_zero]
  | succ k ih =>
    rcases run_succ_cases k s with ⟨t, -, hr⟩ | ⟨f, hr⟩ <;> rw [hr]
    · exact ih t
    · nofun

/-- A run over every waiting event and one turn of the engine ends with none waiting and the engine idle. -/
theorem run_drains {s t : State} {events : List Event} (hin : s.inputs = events)
    (h : Sys2Proof.core.run (events.length + 1) s = .next t) : t.eng = .idle ∧ t.inputs = [] := by
  induction events generalizing s with
  | nil =>
    rcases run_succ_cases 0 s with ⟨u, hu, hr⟩ | ⟨f, hr⟩
    · rw [step_of_inputs_nil hin] at hu
      cases hr.symm.trans h
      exact ⟨eng_of_engineTurn hu, (turn_of_engineTurn hu).config_inputs.2.trans hin⟩
    · cases hr.symm.trans h
  | cons e events ih =>
    rcases run_succ_cases (events.length + 1) s with ⟨u, hu, hr⟩ | ⟨f, hr⟩
    · exact ih (inputs_of_step hin hu) (hr.symm.trans h)
    · cases hr.symm.trans h

/-- Settles O8: the run takes one waiting event per step, and the turn left over is the engine's. -/
theorem noCommandStaysPending : Obligations.NoCommandStaysPending :=
  fun s => ⟨fun _ h => run_drains rfl h, run_ne_refused _ s⟩

/-- IRQ at its level is left as it is (R46). -/
theorem State.settleIrq_of_irq_eq {s : State} (h : s.irq = s.irqLevel) : s.settleIrq = s := by
  rw [State.settleIrq, ← h]

/-- Settles O9: with no event and no pending command the step only settles IRQ. -/
theorem finalStateIsStable : Obligations.FinalStateIsStable := by
  rintro s ⟨hin, hidle⟩
  have hstep : step s = .next s.settleIrq := by
    rw [step_of_inputs_nil hin]
    simp only [engineTurn, hidle]
  exact ⟨hstep, fun hinv => by rw [hstep, State.settleIrq_of_irq_eq hinv.irq_level]⟩

end Sys2Proof.Machine
end

section
/-! SUPPORT. Host accesses that store nothing: bus errors, reads, and writes while BUSY = 1 (R68, R71, R78). -/

namespace Sys2Proof.Machine

/-- A read the bus map does not take (R68). -/
theorem perform_read_busError {s : State} {addr : BusAddr} {width : Width}
    (h : target s.config addr width = none) :
    perform (.access (.read addr width)) s = .next (s.respond (.readError 0)) := by
  simp only [perform_access, hostAccess, h]

/-- A write the bus map does not take, BUSY or not (R68, log 5). -/
theorem perform_write_busError {s : State} {addr : BusAddr} {width : Width} (w : Word)
    (h : target s.config addr width = none) :
    perform (.access (.write addr width w)) s = .next (s.respond .writeError) := by
  simp only [perform_access, hostAccess, h]

/-- Settles O48: the access reaches nothing, so the port answers and no more. -/
theorem busErrorChangesNothing : Obligations.BusErrorChangesNothing := by
  intro s addr width hlegal
  have htg : target s.config addr width = none := (target_eq_none_iff _ _ _).mpr hlegal
  exact ⟨perform_read_busError htg, fun w => perform_write_busError w htg⟩

/-- A host read, legal or not, is the port's answer and some free values used up (R71, log 3). -/
theorem perform_read_eq (s : State) (addr : BusAddr) (width : Width) :
    ∃ r d, perform (.access (.read addr width)) s = .next ((s.respond r).draw d) := by
  cases htg : target s.config addr width with
  | none => exact ⟨.readError 0, 0, perform_read_busError htg⟩
  | some tg =>
    obtain ⟨r, d, hread⟩ := hostRead_eq s tg width.bytes
    exact ⟨r, d, by rw [perform_read htg, hread]⟩

/-- Settles O49: every read is the port's answer and a draw. -/
theorem readsHaveNoSideEffects : Obligations.ReadsHaveNoSideEffects :=
  fun s addr width => perform_read_eq s addr width

/-- CMD is reached by a word at its offset only (R24, R61). -/
theorem target_eq_cmd {p : Params} {addr : BusAddr} {width : Width}
    (h : target p addr width = some (.register (some .cmd))) : addr = 0x000008 ∧ width = .w32 := by
  rcases target_cases h with ⟨r, hr, hw, -, hat⟩ | ⟨i, hi, -⟩ | ⟨k, hk, -⟩ | ⟨k, hk, -⟩
  · cases hr
    exact ⟨BitVec.eq_of_toNat_eq ((registerAt_eq_cmd_iff _).mp hat.symm), hw⟩
  · cases hi
  · cases hk
  · cases hk

/-- While BUSY = 1 a word written to CMD is dropped, SRESET's excepted (R204). -/
theorem cmdWrite_dropped {s : State} {w : Word} (hb : s.busy = true) (hw : w ≠ 0x0000000F#32) :
    cmdWrite w s = .next s.dropWrite := by
  rw [cmdWrite, if_pos hb, if_neg hw]

/-- While BUSY = 1 a legal write is dropped whatever it reaches, SRESET's word to CMD excepted (R78, log 12). -/
theorem perform_write_busy {s : State} {addr : BusAddr} {width : Width} {w : Word} {tg : Target}
    (hb : s.busy = true) (htg : target s.config addr width = some tg)
    (hw : tg = .register (some .cmd) → w ≠ 0x0000000F#32) :
    perform (.access (.write addr width w)) s = .next (s.dropWrite.respond .written) := by
  simp only [perform_access, hostAccess, htg]
  split
  · rename_i h
    cases h
  · rename_i h
    rw [cmdWrite_dropped hb (hw (Option.some.inj h)), onNext_next]
  · rw [if_pos hb]

/-- Settles O6: a legal access reaches something, and only SRESET's word to CMD is not dropped there. -/
theorem writeWhileBusyDropped : Obligations.WriteWhileBusyDropped := by
  intro s addr width w hb hlegal hsreset
  obtain ⟨tg, htg⟩ : ∃ tg, target s.config addr width = some tg :=
    Option.ne_none_iff_exists'.mp fun h => (target_eq_none_iff _ _ _).mp h hlegal
  refine perform_write_busy hb htg ?_
  rintro rfl hw
  exact hsreset ⟨(target_eq_cmd htg).1, hw⟩

/-- While BUSY = 1 an access other than SRESET's is a bare answer or a dropped write (R75, R78). -/
theorem perform_access_busy {s : State} {a : Access} (hb : s.busy = true)
    (ha : a ≠ .write 0x000008 .w32 0x0000000F#32) :
    (∃ r d, perform (.access a) s = .next ((s.respond r).draw d)) ∨
    perform (.access a) s = .next (s.dropWrite.respond .written) := by
  cases a with
  | read addr width => exact .inl (perform_read_eq s addr width)
  | write addr width w =>
    cases htg : target s.config addr width with
    | none => exact .inl ⟨.writeError, 0, perform_write_busError w htg⟩
    | some tg =>
      refine .inr (perform_write_busy hb htg ?_)
      rintro rfl rfl
      obtain ⟨rfl, rfl⟩ := target_eq_cmd htg
      exact ha rfl

/-- Settles O7: neither an answer nor a dropped write reaches the fields named. -/
theorem pendingCommandIsFixed : Obligations.PendingCommandIsFixed := by
  intro s t op a hop ha h
  have hb : s.busy = true := (State.busy_eq_true_iff s).mpr ⟨op, hop⟩
  rcases perform_access_busy hb ha with ⟨r, d, hp⟩ | hp
  · cases hp.symm.trans h
    exact ⟨hop, rfl, rfl, rfl, rfl, rfl, rfl, rfl, rfl, rfl, rfl⟩
  · cases hp.symm.trans h
    exact ⟨hop, rfl, rfl, rfl, rfl, rfl, rfl, rfl, rfl, rfl, rfl⟩

end Sys2Proof.Machine
end

section
/-! SUPPORT. Host accesses to the data memories while BUSY = 0: what a write stores and a read returns (R62 to R65). -/

namespace Sys2Proof.Machine

/-- The low bytes of a word, stored at `k`: each at its place, and nothing else (R65). -/
theorem Memory.read_writeBytes_bytesOfWord (m : Memory) (k n : Nat) (w : Word) :
    (∀ i, i < n →
      Memory.read (Memory.writeBytes m k (bytesOfWord n w)) (k + i) = some (w.extractLsb' (8 * i) 8)) ∧
    (∀ a, (a < k ∨ k + n ≤ a) → Memory.read (Memory.writeBytes m k (bytesOfWord n w)) a = Memory.read m a) := by
  constructor
  · intro i hi
    rw [Memory.read_writeBytes_of_lt (by simpa using hi), bytesOfWord_getElem]
  · intro a ha
    exact Memory.read_writeBytes_of_outside (by simpa using ha)

/-- Settles O50: the write reaches CWM, where it stores the word's low bytes. -/
theorem hostWriteToCodewords : Obligations.HostWriteToCodewords := by
  intro s addr width w k hidle haddr hal hk
  exact ⟨_, perform_write hidle (target_cwm haddr hal hk) (by simp), rfl,
    Memory.read_writeBytes_bytesOfWord s.cwm k width.bytes w⟩

/-- Settles O51: the write reaches MM, where it stores the word's low bytes. -/
theorem hostWriteToMatrix : Obligations.HostWriteToMatrix := by
  intro s addr width w k hidle haddr hal hk
  exact ⟨_, perform_write hidle (target_mm haddr hal hk) (by simp), rfl,
    Memory.read_writeBytes_bytesOfWord s.mm k width.bytes w⟩

/-- While BUSY = 0 a host read of written bytes gives those bytes (R79). -/
theorem State.hostBytes_of_written {s : State} {m : Memory} {k n : Nat} {bs : List Byte} (hidle : s.eng = .idle)
    (hlen : bs.length = n) (h : ∀ i (hi : i < bs.length), Memory.read m (k + i) = some bs[i]) :
    s.hostBytes m k n = bs := by
  have hb : s.busy = false := (State.busy_eq_false_iff s).mpr hidle
  refine List.ext_getElem (by simp [State.hostBytes, hlen]) fun i _ hi => ?_
  simp [State.hostBytes, State.hostByte, hb, h i hi]

/-- The word a host read of `n` written bytes returns: those bytes from the lowest up, zero above (R65, log 6). -/
theorem littleEndian_hostBytes {s : State} {m : Memory} {k n : Nat} {byte : Nat → Byte} (hidle : s.eng = .idle)
    (hn : n ≤ 4) (h : ∀ i, i < n → Memory.read m (k + i) = some (byte i)) :
    (∀ i, i < n → (littleEndian (s.hostBytes m k n)).extractLsb' (8 * i) 8 = byte i) ∧
    (littleEndian (s.hostBytes m k n)).toNat < 256 ^ n := by
  have hbytes : s.hostBytes m k n = (List.range n).map byte :=
    State.hostBytes_of_written hidle (by simp) fun i hi => by simpa using h i (by simpa using hi)
  rw [hbytes]
  constructor
  · intro i hi
    rw [littleEndian_extract (by simpa using hn) i (by simpa using hi)]
    simp
  · simpa using littleEndian_lt (bs := (List.range n).map byte) (by simpa using hn)

theorem Width.bytes_le (w : Width) : w.bytes ≤ 4 := by
  cases w <;> decide

/-- Settles O52: the read reaches CWM or MM, and the word it returns is that of the bytes held there. -/
theorem hostReadOfWrittenBytes : Obligations.HostReadOfWrittenBytes := by
  intro s addr width k byte hidle hal h
  rcases h with ⟨haddr, hk, hbytes⟩ | ⟨haddr, hk, hbytes⟩
  · exact ⟨_, _, perform_read (target_cwm haddr hal hk), rfl, littleEndian_hostBytes hidle width.bytes_le hbytes⟩
  · exact ⟨_, _, perform_read (target_mm haddr hal hk), rfl, littleEndian_hostBytes hidle width.bytes_le hbytes⟩

/-- A command reads an entry as it was stored (R37, R62). -/
theorem readEntry_writeEntry (bfm : Memory) (i : Nat) (e : Entry) :
    readEntry (writeEntry bfm i e) i = .ok e := by
  have hread : readBytes .bfm (writeEntry bfm i e) (4 * i) 4 = .ok (bytesOfWord 4 (wordOfEntry e)) :=
    (readBytes_eq_ok_iff _ _ _ _ _).mpr ⟨bytesOfWord_length _ _, fun _ hj => Memory.read_writeBytes_of_lt hj⟩
  rw [readEntry, hread, ok_bind, littleEndian_bytesOfWord, entryOfWord_wordOfEntry]
  rfl

/-- While BUSY = 0 the host reads the bus word of the entry a command reads (R95). -/
theorem State.entryWord_of_readEntry {s : State} {i : Nat} {e : Entry} (hidle : s.eng = .idle)
    (h : readEntry s.bfm i = .ok e) : s.entryWord i = wordOfEntry e := by
  obtain ⟨bs, hread, he⟩ := bind_eq_ok.mp h
  obtain rfl : entryOfWord (littleEndian bs) = e := Except.ok.inj he
  obtain ⟨hlen, hbytes⟩ := (readBytes_eq_ok_iff _ _ _ _ _).mp hread
  simp [State.entryWord, (State.busy_eq_false_iff s).mpr hidle, State.hostBytes_of_written hidle hlen hbytes]

/-- The state after a host write of a word to entry `i` of BFM while BUSY = 0 (R62). -/
def State.entryWritten (s : State) (i : Nat) (w : Word) : State :=
  (s.writeTarget (.entry i) 4 w).respond .written

/-- Commands read the written word's VALUE and WIDTH (R95). -/
theorem State.readEntry_entryWritten (s : State) (i : Nat) (w : Word) :
    readEntry (s.entryWritten i w).bfm i = .ok (entryOfWord w) :=
  readEntry_writeEntry s.bfm i (entryOfWord w)

/-- Settles O53: the write stores the word's entry, and the read goes by what commands read there. -/
theorem entryWriteThenRead : Obligations.EntryWriteThenRead := by
  intro s addr w i hidle haddr hi
  have htg : target s.config addr .w32 = some (.entry i) := target_entry haddr hi
  have hread := s.readEntry_entryWritten i w
  have hword : (s.entryWritten i w).entryWord i = w &&& 0x1FFFFFFF#32 :=
    (State.entryWord_of_readEntry (s := s.entryWritten i w) hidle hread).trans (wordOfEntry_entryOfWord w)
  exact ⟨s.entryWritten i w, _, perform_write hidle htg (by simp), rfl, hread,
    (Memory.read_writeBytes_bytesOfWord s.bfm (4 * i) 4 _).2, perform_read htg, congrArg Response.data hword⟩

end Sys2Proof.Machine
end

section
/-! SUPPORT. The decoder against the predicates on words: what RSV and OP decide, and the words that are commands. -/

namespace Sys2Proof.Machine

theorem opField_toNat (w : Word) : (opField w).toNat = w.toNat % 16 := by
  simp [opField]

/-- The word is below 16 exactly when its bits 31:4 are zero (R90, R92). -/
theorem rsvClear_iff_rsvField (w : Word) : rsvClear w = true ↔ rsvField w = 0 := by
  have hfield : (rsvField w).toNat = w.toNat / 16 := by
    rw [rsvField, BitVec.extractLsb'_toNat, Nat.shiftRight_eq_div_pow]
    omega
  rw [rsvClear, decide_eq_true_iff, BitVec.toNat_eq, hfield]
  simp

theorem opAssigned_iff_opField (w : Word) :
    opAssigned w = true ↔ (opField w).toNat ≤ 4 ∨ (opField w).toNat = 15 := by
  rw [opAssigned, decide_eq_true_iff, opField_toNat]

/-- A word decodes to a command exactly when it is that command's word (R91, R96). -/
theorem decode_eq_ok_iff (w : Word) (i : Instr) : decode w = .ok i ↔ encode i = w := by
  constructor
  · exact fun h => (eq_encode_of_decode h).symm
  · rintro rfl
    exact decode_encode i

theorem commandWellFormed_encode (i : Instr) : commandWellFormed (encode i) = true := by
  cases i <;> rfl

/-- A word below 16 with an assigned OP is one of the six words of the opcode map (R91). -/
theorem exists_encode_of_commandWellFormed {w : Word} (h : commandWellFormed w = true) : ∃ i, encode i = w := by
  obtain ⟨hlt, hop⟩ : w.toNat < 16 ∧ (w.toNat % 16 ≤ 4 ∨ w.toNat % 16 = 15) := by
    simpa [commandWellFormed, rsvClear, opAssigned] using h
  have hval : w.toNat = 0 ∨ w.toNat = 1 ∨ w.toNat = 2 ∨ w.toNat = 3 ∨ w.toNat = 4 ∨ w.toNat = 15 := by omega
  rcases hval with hw | hw | hw | hw | hw | hw
  · exact ⟨.nop, BitVec.eq_of_toNat_eq hw.symm⟩
  · exact ⟨.pack, BitVec.eq_of_toNat_eq hw.symm⟩
  · exact ⟨.rsenc, BitVec.eq_of_toNat_eq hw.symm⟩
  · exact ⟨.place, BitVec.eq_of_toNat_eq hw.symm⟩
  · exact ⟨.encode, BitVec.eq_of_toNat_eq hw.symm⟩
  · exact ⟨.sreset, BitVec.eq_of_toNat_eq hw.symm⟩

/-- The words that decode are those with RSV = 0 and an assigned OP (R96). -/
theorem exists_decode_iff (w : Word) : (∃ i, decode w = .ok i) ↔ commandWellFormed w = true := by
  simp only [decode_eq_ok_iff]
  constructor
  · rintro ⟨i, rfl⟩
    exact commandWellFormed_encode i
  · exact exists_encode_of_commandWellFormed

/-- RSV ≠ 0 is refused whatever OP is (R92). -/
theorem decode_of_rsv_set {w : Word} (h : rsvClear w = false) : decode w = .error .reservedBits := by
  have hne : rsvField w ≠ 0 := by
    rw [ne_eq, ← rsvClear_iff_rsvField, h]
    exact Bool.false_ne_true
  rw [decode, if_pos hne]

/-- With RSV = 0 an OP the map leaves out is refused under its own value (R93). -/
theorem decode_of_op_reserved {w : Word} (hrsv : rsvClear w = true) (hop : opAssigned w = false) :
    decode w = .error (.reservedOpcode (opField w)) := by
  have hzero : rsvField w = 0 := (rsvClear_iff_rsvField w).mp hrsv
  have hunassigned : ¬ ((opField w).toNat ≤ 4 ∨ (opField w).toNat = 15) := by
    rw [← opAssigned_iff_opField, hop]
    exact Bool.false_ne_true
  rw [decode, if_neg (not_not.mpr hzero)]
  split
  case h_7 => rfl
  all_goals omega

/-- Settles O2: the round trip in both directions, the words that decode, and each refusal by the field that causes
it. -/
theorem decodeEncodeAgree : Obligations.DecodeEncodeAgree :=
  ⟨fun i _ => decode_encode i, fun w i => (decode_eq_ok_iff w i).mp, exists_decode_iff,
    fun _ => decode_of_rsv_set, fun _ => decode_of_op_reserved⟩

/-- Settles O1: the six words are those of the encoder, and the two others lack an assigned OP or have RSV ≠ 0. -/
theorem opcodeMapWords : Obligations.OpcodeMapWords :=
  ⟨decode_encode .nop, decode_encode .pack, decode_encode .rsenc, decode_encode .place, decode_encode .encode,
    decode_encode .sreset, decode_of_op_reserved rfl rfl, decode_of_rsv_set rfl⟩

end Sys2Proof.Machine
end

section
/-! SUPPORT. The bit stream of PACK, its codewords and pads, bit by bit (R112 to R115). -/

namespace Sys2Proof.Machine

/-- Bit `j` of an entry, counted from its most significant bit (R113). -/
theorem Entry.getElem?_bits (e : Entry) {j : Nat} (hj : j < e.width.toNat) :
    e.bits[j]? = some (e.value.getLsbD (e.width.toNat - 1 - j)) := by
  rw [List.getElem?_eq_getElem (by simpa using hj)]
  exact congrArg some (bitsMsbFirst_getElem _ _ _ _)

/-- The bits of an entry stand in the stream behind those of the entries before it (R113). -/
theorem bitStream_getElem?_entry (before after : List Entry) (e : Entry) {j : Nat} (hj : j < e.width.toNat) :
    (bitStream (before ++ e :: after))[totalDataBits before + j]? = e.bits[j]? := by
  rw [bitStream_append, bitStream_cons, List.getElem?_append_right (by simp), bitStream_length,
    Nat.add_sub_cancel_left, List.getElem?_append_left (by simpa using hj)]

/-- Settles O12: an entry's bit by its place in the entry, and the entry by the widths before it. -/
theorem bitStreamIsMsbFirst : Obligations.BitStreamIsMsbFirst :=
  ⟨fun _ => rfl, bitStream_length, fun before after e _ hj =>
    (bitStream_getElem?_entry before after e hj).trans (e.getElem?_bits hj)⟩

/-- Bit `7 - b` of byte `q` is bit `8 * q + b` of the stream (R114). -/
theorem toCodewords_getLsbD (bits : List Bool) {q b : Nat} (hq : q < (toCodewords bits).length) (hb : b < 8) :
    (toCodewords bits)[q].getLsbD (7 - b) = bits.getD (8 * q + b) false :=
  codewordsFrom_getLsbD _ bits q b hq hb

/-- Settles O13: each bit of a byte is one of the stream's, or 0 past the stream's end. -/
theorem codewordsAreBigEndian : Obligations.CodewordsAreBigEndian := by
  refine fun bits => ⟨toCodewords_length bits, fun q b c hc hb => ?_⟩
  obtain ⟨hq, rfl⟩ := List.getElem?_eq_some_iff.mp hc
  rw [toCodewords_getLsbD bits hq hb]
  split
  case isTrue h => exact List.getD_eq_getElem _ _ h
  case isFalse h => exact List.getD_eq_default _ _ (Nat.le_of_not_lt h)

theorem padCodewords_getElem? {m q : Nat} (h : q < m) : (padCodewords m)[q]? = some (padByte q) := by
  simp [padCodewords, h]

/-- Settles O14: pad `q` is `padByte q`, and the pads end at codeword D. -/
theorem padCodewordsAlternate : Obligations.PadCodewordsAlternate := by
  refine ⟨fun m q hq => padCodewords_getElem? hq, padCodewords_length, fun es m hm hfit => ?_⟩
  rw [dataCodewords_length hm hfit, Nat.shiftRight_eq_div_pow]

/-- Four bits of room or more (R112). -/
theorem terminatorWidth_of_room {t m : Nat} (h : (t : Int) ≤ (m : Int) - 4) : terminatorWidth t m = 4 :=
  if_pos h

/-- Less than four bits of room: the terminator fills it (R112). -/
theorem terminatorWidth_of_short {t m : Nat} (h : (m : Int) - 4 < (t : Int)) (hle : t ≤ m) :
    terminatorWidth t m = m - t := by
  rw [terminatorWidth, if_neg (Int.not_le.mpr h)]
  split <;> omega

end Sys2Proof.Machine
end

section
/-! SUPPORT. PACK as a command: its errors in order, its success, what it keeps and what it does not read
(R110, R116, R229). -/

namespace Sys2Proof.Machine

/-! Errors. -/

theorem State.capacityOk_eq_false_iff (s : State) :
    s.capacityOk = false ↔ s.capacity = 0 ∨ s.capacity % 8 ≠ 0 ∨ s.config.nCw < s.dataCount := by
  rw [← Bool.not_eq_true, State.capacityOk_iff]
  omega

theorem exec_pack (s : State) : exec .pack s = completeCommand s (packResult s) := exec_engine .pack s

/-- A check of PACK that fails is reported, and nothing else changes (R230, R231). -/
theorem exec_pack_of_raise {s : State} {c : ErrorCode} (h : packResult s = .error (.raise c)) :
    exec .pack s = .next (errorReported s c) := by
  rw [exec_pack, h, completeCommand_raise, errorEntry_eq_errorReported]

/-- PACK raises BAD_BITFIELD before it looks at T or M (R227, R229). -/
theorem exec_pack_badBitfield {s : State} (h : s.checkedEntries = .error (.raise .badBitfield)) :
    exec .pack s = .next (errorReported s .badBitfield) :=
  exec_pack_of_raise (packResult_of_error h)

section
variable {s : State} {es : List Entry}

theorem exec_pack_emptyData (h : s.checkedEntries = .ok es) (hzero : totalDataBits es = 0) :
    exec .pack s = .next (errorReported s .emptyData) :=
  exec_pack_of_raise (by rw [packResult_of_entries h, if_pos hzero])

theorem exec_pack_badCapacity (h : s.checkedEntries = .ok es) (hpos : 0 < totalDataBits es)
    (hcap : s.capacityOk = false) : exec .pack s = .next (errorReported s .badCapacity) :=
  exec_pack_of_raise (by rw [packResult_of_entries h, if_neg hpos.ne', if_pos hcap])

/-- The data do not fit M, so they are not empty (R112, R222, R224). -/
theorem exec_pack_capacityOverflow (h : s.checkedEntries = .ok es) (hcap : s.capacityOk = true)
    (hover : s.capacity < totalDataBits es) : exec .pack s = .next (errorReported s .capacityOverflow) :=
  exec_pack_of_raise (by
    rw [packResult_of_entries h, if_neg (Nat.ne_zero_of_lt hover), if_neg (by simp [hcap]), if_pos hover])

end

/-- Settles O18: each error by its own lemma, the checks before it passing. -/
theorem packChecksInOrder : Obligations.PackChecksInOrder := by
  refine ⟨fun s h => exec_pack_badBitfield (State.checkedEntries_tooMany h), fun s es he => ?_⟩
  have hok : AllLegal es → s.checkedEntries = .ok es := fun hl => (s.checkedEntries_ok_iff es).mpr ⟨he, hl⟩
  exact ⟨fun hl => exec_pack_badBitfield (State.checkedEntries_illegal he hl),
    fun hl hzero => exec_pack_emptyData (hok hl) hzero,
    fun hl hpos hcap => exec_pack_badCapacity (hok hl) hpos (s.capacityOk_eq_false_iff.mpr hcap),
    fun hl hpos hmod hfit hover =>
      exec_pack_capacityOverflow (hok hl) (s.capacityOk_iff.mpr ⟨hpos.ne', hmod, hfit⟩) hover⟩

/-- Settles O11: the three widths, the zero bits `packedStream` appends, and the error of T > M. -/
theorem terminatorWidthRule : Obligations.TerminatorWidthRule := by
  refine ⟨fun _ _ => terminatorWidth_of_room, fun _ _ hroom hlt => terminatorWidth_of_short hroom hlt.le, ?_,
    fun _ _ => rfl, fun s es he hl hpos hmod hfit hover => ?_⟩
  · rintro t _ rfl
    rw [terminatorWidth_of_short (by omega) le_rfl, Nat.sub_self]
  · exact exec_pack_capacityOverflow ((s.checkedEntries_ok_iff es).mpr ⟨he, hl⟩)
      (s.capacityOk_iff.mpr ⟨hpos.ne', hmod, hfit⟩) hover

/-! Success. -/

theorem exec_pack_of_ready {s : State} {es : List Entry} (h : PackReady s es) :
    exec .pack s = .next (packWrites s es).completeOk := by
  rw [exec_pack, (packResult_ok_iff s _).mpr ⟨es, h, rfl⟩, completeCommand_ok]

/-- PACK completes with its writes when it is ready, or with an error and none (R110, R230). -/
theorem exec_pack_next {s t : State} (h : exec .pack s = .next t) :
    (∃ es, PackReady s es ∧ t = (packWrites s es).completeOk) ∨ ∃ c, t = s.errorEntry c := by
  rcases completeCommand_next ((exec_pack s).symm.trans h) with ⟨s', hr, rfl⟩ | ⟨c, -, rfl⟩
  · obtain ⟨es, hready, rfl⟩ := (packResult_ok_iff s s').mp hr
    exact .inl ⟨es, hready, rfl⟩
  · exact .inr ⟨c, rfl⟩

theorem PackReady.dataCodewords_length {s : State} {es : List Entry} (h : PackReady s es) :
    (dataCodewords es s.capacity).length = s.dataCount :=
  (Machine.dataCodewords_length h.capacity_bytes h.fits).trans s.dataCount_eq.symm

/-- CWM holds the data codewords from its first byte on (R110). -/
theorem read_cwm_packWrites {s : State} {es : List Entry} {q : Nat}
    (hq : q < (dataCodewords es s.capacity).length) :
    Memory.read (packWrites s es).cwm q = some (dataCodewords es s.capacity)[q] := by
  have h := Memory.read_writeBytes_of_lt (m := s.cwm) (k := 0) hq
  rwa [Nat.zero_add] at h

/-- Settles O15: codeword `q` is a data codeword, whose bits are known before and behind the packed stream's end. -/
theorem packWritesCodewords : Obligations.PackWritesCodewords := by
  intro s es h
  refine ⟨_, exec_pack_of_ready h, rfl, rfl, State.irq_completeOk _, fun q hq => ?_⟩
  have hlt : q < (dataCodewords es s.capacity).length := h.dataCodewords_length.symm ▸ hq
  refine ⟨_, read_cwm_packWrites hlt, ?_⟩
  rw [← packedStream_length]
  exact ⟨fun hstream b hb => dataCodewords_getLsbD_stream hstream hlt hb,
    fun hpad => dataCodewords_getElem_pad hpad hlt⟩

theorem State.dataCount_le (s : State) : s.dataCount ≤ 8191 := by
  have := s.capacity_lt
  rw [State.dataCount_eq]
  omega

/-- Settles O16: each value fits its register, and an error leaves the registers as they were. -/
theorem packResultRegisters : Obligations.PackResultRegisters := by
  refine ⟨fun s es h => ?_, fun s t h herr => ?_, terminatorWidth_le, State.dataCount_le⟩
  · have hcap := s.capacity_lt
    have hfits := h.fits
    have hterm := terminatorWidth_le (totalDataBits es) s.capacity
    have hcount := s.dataCount_le
    have hd : (BitVec.ofNat 16 s.dataCount).toNat = s.dataCount := Nat.mod_eq_of_lt (by omega)
    exact ⟨_, exec_pack_of_ready h, Nat.mod_eq_of_lt (by omega), Nat.mod_eq_of_lt (by omega), hd, hd⟩
  · rcases exec_pack_next h with ⟨es, -, rfl⟩ | ⟨c, rfl⟩
    · cases herr
    · rfl

/-- Settles O17: PACK's writes end at codeword D, and an error writes nothing. -/
theorem packFrame : Obligations.PackFrame := by
  intro s t h
  rcases exec_pack_next h with ⟨es, hready, rfl⟩ | ⟨c, rfl⟩
  · refine ⟨rfl, rfl, rfl, rfl, rfl, rfl, rfl, rfl, rfl, rfl, rfl, rfl, fun a ha => ?_⟩
    refine Memory.read_writeBytes_of_outside (.inr ?_)
    rwa [hready.dataCodewords_length, Nat.zero_add]
  · exact ⟨rfl, rfl, rfl, rfl, rfl, rfl, rfl, rfl, rfl, rfl, rfl, rfl, fun _ _ => rfl⟩

/-! What PACK does not read. -/

/-- A state with another CFG, other tables and another MM. -/
def State.reconfigured (version : BitVec 6) (level : BitVec 2) (layouts : List ((Nat × Nat) × LayoutRecord))
    (generators : List (Nat × List (List Byte))) (mm : Memory) (s : State) : State :=
  { s with
    ctl := { s.ctl with version := version, level := level }
    config := { s.config with layouts := layouts, generators := generators }
    mm := mm }

section
variable (version : BitVec 6) (level : BitVec 2) (layouts : List ((Nat × Nat) × LayoutRecord))
  (generators : List (Nat × List (List Byte))) (mm : Memory) (s : State)

/-- PACK's checks and writes come out the same with another CFG, other tables and another MM (R110, R223). -/
theorem packResult_reconfigured : packResult (s.reconfigured version level layouts generators mm) =
    (packResult s).map (State.reconfigured version level layouts generators mm) := by
  have hcheck : (s.reconfigured version level layouts generators mm).checkedEntries = s.checkedEntries := rfl
  cases h : s.checkedEntries with
  | error e => rw [packResult_of_error h, packResult_of_error (hcheck.trans h)]; rfl
  | ok es =>
    have hcapOk : (s.reconfigured version level layouts generators mm).capacityOk = s.capacityOk := rfl
    have hcap : (s.reconfigured version level layouts generators mm).capacity = s.capacity := rfl
    rw [packResult_of_entries h, packResult_of_entries (hcheck.trans h), hcapOk, hcap]
    split_ifs <;> rfl

end

/-- A change of the state that commutes with both completions commutes with the completion of a command (R205). -/
theorem completeCommand_map {f : State → State} (hok : ∀ t, (f t).completeOk = f t.completeOk)
    (herr : ∀ t c, (f t).errorEntry c = f (t.errorEntry c)) (s : State) (r : Except Stop State) :
    completeCommand (f s) (r.map f) = onNext f (completeCommand s r) := by
  match r with
  | .ok t => exact congrArg Host.Outcome.next (hok t)
  | .error (.raise c) => exact congrArg Host.Outcome.next (herr s c)
  | .error (.modelFault e) => rfl

/-- Settles O20: PACK's result does not depend on what the change makes different, nor does its completion. -/
theorem packIgnoresConfiguration : Obligations.PackIgnoresConfiguration := by
  intro s version level layouts generators mm
  show exec .pack (s.reconfigured version level layouts generators mm) =
    onNext (State.reconfigured version level layouts generators mm) (exec .pack s)
  rw [exec_pack, packResult_reconfigured, exec_pack]
  exact completeCommand_map (f := State.reconfigured version level layouts generators mm) (fun _ => rfl)
    (fun _ _ => rfl) s _

end Sys2Proof.Machine
end

section
/-! SUPPORT. The division of RSENC: one step byte by byte, a zero leading byte, and linearity (R144 to R146). -/

namespace Sys2Proof.Machine

/-! One step. -/

theorem divStep_cons_of_ne_zero {c : Byte} (hc : c ≠ 0) (u : List Byte) (r : Nat) (rows : List (List Byte)) :
    divStep (c :: u) r rows = xorRow u ((rows.getD c.toNat []).take r) :=
  if_neg hc

theorem xorRow_getElem? {u row : List Byte} {k : Nat} (hk : k < u.length) :
    (xorRow u row)[k]? = some (u[k] ^^^ row.getD k 0) := by
  have hk' : k < (xorRow u row).length := by rwa [xorRow_length]
  rw [List.getElem?_eq_getElem hk', xorRow_getElem u row k hk' hk]

/-- Settles O21: a zero leading byte leaves the rest, a nonzero one XORs its row, which is 0 past its r bytes. -/
theorem divisionStepRule : Obligations.DivisionStepRule := by
  intro c u row r rows hrow hlen _
  refine ⟨divStep_length (c :: u) r rows, fun k hk => ?_⟩
  by_cases hc : c = 0
  · rw [hc, divStep_zero, if_neg fun h => h.1 rfl, List.getElem?_eq_getElem hk]
  · have hstep : divStep (c :: u) r rows = xorRow u row := by
      rw [divStep_cons_of_ne_zero hc, List.getD_eq_getElem?_getD, hrow, Option.getD_some,
        List.take_of_length_le hlen.le]
    rw [hstep, xorRow_getElem? hk]
    by_cases hkr : k < r
    · rw [if_pos ⟨hc, hkr⟩]
    · rw [if_neg fun h => hkr h.2, List.getD_eq_default _ _ (by omega)]
      exact congrArg some BitVec.xor_zero

/-! Row 0. -/

/-- A step reads the row of its nonzero leading byte only (R145, R146). -/
theorem divStep_congr_rows {rows rows' : List (List Byte)} (h : ∀ c, c ≠ 0 → rows[c]? = rows'[c]?) (t : List Byte)
    (r : Nat) : divStep t r rows = divStep t r rows' := by
  match t with
  | [] => rfl
  | c :: u =>
    by_cases hc : c = 0
    · rw [hc, divStep_zero, divStep_zero]
    · have hrow := h c.toNat fun h0 => hc (BitVec.eq_of_toNat_eq h0)
      rw [divStep_cons_of_ne_zero hc, divStep_cons_of_ne_zero hc, List.getD_eq_getElem?_getD, hrow,
        ← List.getD_eq_getElem?_getD]

theorem divSteps_congr_rows {rows rows' : List (List Byte)} (h : ∀ c, c ≠ 0 → rows[c]? = rows'[c]?) (n : Nat)
    (t : List Byte) (r : Nat) : divSteps n t r rows = divSteps n t r rows' := by
  induction n generalizing t with
  | zero => rfl
  | succ n ih => rw [divSteps, divSteps, divStep_congr_rows h, ih]

/-- Settles O22: a step with another row 0 is the same step, and so is every sequence of steps. -/
theorem zeroLeadingByteOnlyShifts : Obligations.ZeroLeadingByteOnlyShifts :=
  ⟨divStep_zero, fun _ _ r h =>
    ⟨fun t => divStep_congr_rows h t r, fun data => divSteps_congr_rows h data.length _ r⟩⟩

/-- Steps over zero bytes only shift them out (R146). -/
theorem divSteps_zeros (n : Nat) (t : List Byte) (r : Nat) (rows : List (List Byte)) :
    divSteps n (List.replicate n 0 ++ t) r rows = t := by
  induction n with
  | zero => rfl
  | succ n ih => rw [divSteps, List.replicate_succ, List.cons_append, divStep_zero, ih]

/-- Settles O23: `d` steps shift out a block of `d` zeros and leave the appended ones. -/
theorem remainderShape : Obligations.RemainderShape := by
  refine ⟨rsRemainder_length, fun d r rows => ?_⟩
  rw [rsRemainder, List.length_replicate, divSteps_zeros]

/-! Linearity. -/

/-- The XOR of two byte sequences, byte by byte. -/
abbrev xorBytes (x y : List Byte) : List Byte := List.zipWith (· ^^^ ·) x y

theorem xorBytes_self (x : List Byte) : xorBytes x x = List.replicate x.length 0 := by
  induction x with
  | nil => rfl
  | cons a x ih =>
    rw [xorBytes, List.zipWith_cons_cons, BitVec.xor_self, ← xorBytes, ih]
    rfl

theorem xorBytes_length {x y : List Byte} (h : x.length = y.length) : (xorBytes x y).length = x.length := by
  simp [h]

theorem xorRow_zeros (u : List Byte) (n : Nat) : xorRow u (List.replicate n 0) = u := by
  induction u generalizing n with
  | nil => rfl
  | cons a u ih =>
    cases n with
    | zero => rfl
    | succ n => rw [List.replicate_succ, xorRow, ih, show a ^^^ 0 = a from BitVec.xor_zero]

/-- The XOR of a row commutes with the XOR of the sequences. -/
theorem xorRow_xorBytes {u v g h : List Byte} (huv : u.length = v.length) (hgh : g.length = h.length) :
    xorRow (xorBytes u v) (xorBytes g h) = xorBytes (xorRow u g) (xorRow v h) := by
  induction u generalizing v g h with
  | nil => rfl
  | cons a u ih =>
    match v, huv with
    | b :: v, huv =>
      match g, h, hgh with
      | [], [], _ => rfl
      | c :: g, d :: h, hgh =>
        have hhead : a ^^^ b ^^^ (c ^^^ d) = a ^^^ c ^^^ (b ^^^ d) := by ac_rfl
        simp only [xorBytes, List.zipWith_cons_cons, xorRow, hhead]
        rw [← xorBytes, ih (Nat.succ.inj huv) (Nat.succ.inj hgh)]

/-- A generator table linear in the leading byte: the premise of `Obligations.ParityIsLinear`. -/
structure LinearRows (r : Nat) (rows : List (List Byte)) : Prop where
  length : ∀ c : Byte, (rows.getD c.toNat []).length = r
  add : ∀ a b : Byte, rows.getD (a ^^^ b).toNat [] = xorBytes (rows.getD a.toNat []) (rows.getD b.toNat [])

section
variable {r : Nat} {rows : List (List Byte)}

theorem LinearRows.row_zero (hl : LinearRows r rows) :
    rows.getD (0 : Byte).toNat [] = List.replicate r 0 := by
  have h := hl.add 0 0
  rwa [BitVec.xor_self, xorBytes_self, hl.length] at h

/-- Over a linear table a zero leading byte needs no case of its own: its row is zero. -/
theorem LinearRows.divStep_cons (hl : LinearRows r rows) (c : Byte) (u : List Byte) :
    divStep (c :: u) r rows = xorRow u (rows.getD c.toNat []) := by
  by_cases hc : c = 0
  · rw [hc, divStep_zero, hl.row_zero, xorRow_zeros]
  · rw [divStep_cons_of_ne_zero hc, List.take_of_length_le (hl.length c).le]

theorem LinearRows.divStep_xorBytes (hl : LinearRows r rows) {x y : List Byte} (h : x.length = y.length) :
    divStep (xorBytes x y) r rows = xorBytes (divStep x r rows) (divStep y r rows) := by
  match x, y, h with
  | [], [], _ => rfl
  | a :: u, b :: v, h =>
    rw [xorBytes, List.zipWith_cons_cons, hl.divStep_cons, hl.divStep_cons, hl.divStep_cons, hl.add,
      xorRow_xorBytes (Nat.succ.inj h) ((hl.length a).trans (hl.length b).symm)]

theorem LinearRows.divSteps_xorBytes (hl : LinearRows r rows) (n : Nat) {x y : List Byte}
    (h : x.length = y.length) :
    divSteps n (xorBytes x y) r rows = xorBytes (divSteps n x r rows) (divSteps n y r rows) := by
  induction n generalizing x y with
  | zero => rfl
  | succ n ih =>
    rw [divSteps, hl.divStep_xorBytes h, ih (by rw [divStep_length, divStep_length, h]), divSteps, divSteps]

/-- The appended zero bytes are the XOR of themselves, so the dividend is linear in the block. -/
theorem LinearRows.rsRemainder_xorBytes (hl : LinearRows r rows) {x y : List Byte} (h : x.length = y.length) :
    rsRemainder (xorBytes x y) r rows = xorBytes (rsRemainder x r rows) (rsRemainder y r rows) := by
  have hdividend : xorBytes x y ++ List.replicate r 0 =
      xorBytes (x ++ List.replicate r 0) (y ++ List.replicate r 0) := by
    rw [xorBytes, xorBytes, List.zipWith_append h, ← xorBytes, ← xorBytes, xorBytes_self, List.length_replicate]
  rw [rsRemainder, hdividend, xorBytes_length h, hl.divSteps_xorBytes _ (by simp [h]), rsRemainder,
    rsRemainder, h]

end

/-- Settles O24: each division step is linear, so the sequence of steps is. -/
theorem parityIsLinear : Obligations.ParityIsLinear :=
  fun _ _ hlen hadd _ _ h => LinearRows.rsRemainder_xorBytes ⟨hlen, hadd⟩ h

end Sys2Proof.Machine
end

section
/-! SUPPORT. RSENC as a command: its errors in order, its success and what it keeps (R140, R147, R148, R229). -/

namespace Sys2Proof.Machine

/-! Errors. -/

/-- A check of an engine command that fails is reported, and nothing else changes (R230, R231). -/
theorem exec_engine_of_raise {op : EngineOp} {s : State} {c : ErrorCode}
    (h : commandResult op s = .error (.raise c)) : exec op.instr s = .next (errorReported s c) := by
  rw [exec_engine, h, completeCommand_raise, errorEntry_eq_errorReported]

theorem State.versionOk_eq_false {s : State} (h : ¬ (1 ≤ s.version ∧ s.version ≤ 40)) : s.versionOk = false :=
  Bool.eq_false_iff.mpr (mt s.versionOk_iff.mp h)

section
variable {s : State}

theorem rsencResult_versionRange (h : s.versionOk = false) : rsencResult s = .error (.raise .versionRange) := by
  rw [rsencResult_eq, if_pos h]

theorem rsencResult_badCapacity (hv : s.versionOk = true) (hcap : s.capacityOk = false) :
    rsencResult s = .error (.raise .badCapacity) := by
  rw [rsencResult_eq, if_neg (by simp [hv]), if_pos hcap]

theorem rsencResult_malformedTable (hv : s.versionOk = true) (hcap : s.capacityOk = true)
    (ht : ∀ rec rows, ¬ RsTablesConsistent s rec rows) : rsencResult s = .error (.raise .malformedTable) := by
  have hnone : rsTables s.config s.version s.level s.dataCount = none :=
    Option.eq_none_iff_forall_ne_some.mpr fun tables => mt (rsTables_eq_some_iff s tables.1 tables.2).mp (ht _ _)
  rw [rsencResult_eq, if_neg (by simp [hv]), if_neg (by simp [hcap]), hnone]

end

/-- Settles O28: each error by its own lemma, the checks before it passing. -/
theorem rsencChecksInOrder : Obligations.RsencChecksInOrder := fun s =>
  ⟨fun hv => exec_engine_of_raise (op := .rsenc) (rsencResult_versionRange (State.versionOk_eq_false hv)),
    fun hv hcap => exec_engine_of_raise (op := .rsenc)
      (rsencResult_badCapacity (s.versionOk_iff.mpr hv) (s.capacityOk_eq_false_iff.mpr hcap)),
    fun hv hpos hmod hfit ht => exec_engine_of_raise (op := .rsenc)
      (rsencResult_malformedTable (s.versionOk_iff.mpr hv) (s.capacityOk_iff.mpr ⟨hpos.ne', hmod, hfit⟩) ht)⟩

/-! Success. -/

theorem exec_rsenc (s : State) : exec .rsenc s = completeCommand s (rsencResult s) := exec_engine .rsenc s

/-- The writes of RSENC when the blocks of `rec` have the ECC codewords `ecc` (R147, R148). -/
def parityWritten (s : State) (rec : LayoutRecord) (ecc : List Byte) : State :=
  { s with
    cwm := Memory.writeBytes s.cwm s.dataCount ecc
    results := { s.results with
      dCount := BitVec.ofNat 16 s.dataCount
      cwCount := BitVec.ofNat 16 (s.dataCount + rec.blockOrder.length * rec.eccCodewordsPerBlock)
      nBlocks := BitVec.ofNat 16 rec.blockOrder.length
      eccR := BitVec.ofNat 16 rec.eccCodewordsPerBlock } }

section
variable {s : State} {rec : LayoutRecord} {rows : List (List Byte)} {data : List Byte}

/-- Ready, RSENC computes its writes from the data codewords (R140). -/
theorem RsencReady.rsencResult_eq_ok (h : RsencReady s rec rows data) : rsencResult s =
    .ok (parityWritten s rec (eccOfData rec.eccCodewordsPerBlock rows rec.blockOrder data)) := by
  rw [rsencResult_of_tables ⟨h.version_low, h.version_high⟩
    ⟨h.capacity_pos.ne', h.capacity_bytes, h.capacity_fits⟩ h.tables]
  exact rsencWrites_of_ready (h.codewords.count.trans h.tables.covers.symm) h.codewords.written

theorem exec_rsenc_of_ready (h : RsencReady s rec rows data) : exec .rsenc s =
    .next (parityWritten s rec (eccOfData rec.eccCodewordsPerBlock rows rec.blockOrder data)).completeOk := by
  rw [exec_rsenc, h.rsencResult_eq_ok, completeCommand_ok]

end

/-- RSENC completes with its writes when it is ready, or with an error and none (R140, R230). -/
theorem exec_rsenc_next {s t : State} (h : exec .rsenc s = .next t) :
    (∃ rec rows data, RsencReady s rec rows data ∧ t = (parityWritten s rec
      (eccOfData rec.eccCodewordsPerBlock rows rec.blockOrder data)).completeOk) ∨ ∃ c, t = s.errorEntry c := by
  rcases completeCommand_next ((exec_rsenc s).symm.trans h) with ⟨s', hr, -⟩ | ⟨c, -, rfl⟩
  · obtain ⟨rec, rows, data, hready, -⟩ := rsencResult_ok hr
    exact .inl ⟨rec, rows, data, hready, Host.Outcome.next.inj (h.symm.trans (exec_rsenc_of_ready hready))⟩
  · exact .inr ⟨c, rfl⟩

/-- Byte `k` of block `i` lies inside the ECC codewords of `n` blocks of `r` (R147). -/
theorem parity_index_lt {i k n r : Nat} (hi : i < n) (hk : k < r) : i * r + k < n * r :=
  calc i * r + k < (i + 1) * r := by rw [Nat.succ_mul]; exact Nat.add_lt_add_left hk _
    _ ≤ n * r := Nat.mul_le_mul_right r hi

theorem read_cwm_parityWritten (s : State) (rec : LayoutRecord) (rows : List (List Byte)) (data : List Byte)
    {i k : Nat} (hi : i < rec.blockOrder.length) (hk : k < rec.eccCodewordsPerBlock) :
    Memory.read (parityWritten s rec (eccOfData rec.eccCodewordsPerBlock rows rec.blockOrder data)).cwm
        (s.dataCount + i * rec.eccCodewordsPerBlock + k) =
      (rsRemainder (blockData rec.eccCodewordsPerBlock rec.blockOrder data i) rec.eccCodewordsPerBlock rows)[k]? := by
  have hlt : i * rec.eccCodewordsPerBlock + k <
      (eccOfData rec.eccCodewordsPerBlock rows rec.blockOrder data).length := by
    rw [eccOfData_length]
    exact parity_index_lt hi hk
  rw [Nat.add_assoc, List.getElem?_eq_getElem (by rwa [rsRemainder_length]),
    ← eccOfData_getElem _ _ _ _ i k hi hk hlt]
  exact Memory.read_writeBytes_of_lt hlt

/-- RSENC's writes start at D (R147). -/
theorem read_cwm_parityWritten_below (s : State) (rec : LayoutRecord) (ecc : List Byte) {a : Nat}
    (ha : a < s.dataCount) : Memory.read (parityWritten s rec ecc).cwm a = Memory.read s.cwm a :=
  Memory.read_writeBytes_of_outside (.inl ha)

theorem HoldsCodewords.read_eq {s : State} {bs : List Byte} {n a : Nat} (h : HoldsCodewords s bs n) (ha : a < n) :
    Memory.read s.cwm a = bs[a]? := by
  have hlt : a < bs.length := h.count.symm ▸ ha
  rw [h.written a hlt, List.getElem?_eq_getElem hlt]

/-- Settles O25: the parity is where RSENC writes it, and the data codewords stand below its writes. -/
theorem rsencWritesParity : Obligations.RsencWritesParity := fun s rec rows data h =>
  ⟨_, exec_rsenc_of_ready h, rfl, rfl, State.irq_completeOk _,
    fun _ _ hi hk => read_cwm_parityWritten s rec rows data hi hk,
    fun _ ha => (read_cwm_parityWritten_below s rec _ ha).trans (h.codewords.read_eq ha)⟩

/-- The result registers hold what RSENC computes: N fits CWM, whose depth fits 16 bits (R38, R142, R148). -/
theorem RsTablesConsistent.results_parityWritten {s : State} {rec : LayoutRecord} {rows : List (List Byte)}
    (h : RsTablesConsistent s rec rows) (ecc : List Byte) :
    (parityWritten s rec ecc).results.dCount.toNat = s.dataCount ∧
    (parityWritten s rec ecc).results.cwCount.toNat =
      s.dataCount + rec.blockOrder.length * rec.eccCodewordsPerBlock ∧
    (parityWritten s rec ecc).results.nBlocks.toNat = rec.blockOrder.length ∧
    (parityWritten s rec ecc).results.eccR.toNat = rec.eccCodewordsPerBlock := by
  have hfit := h.parity_fits.trans (nCw_le s.config)
  have hblocks : rec.blockOrder.length ≤ rec.blockOrder.length * rec.eccCodewordsPerBlock :=
    Nat.le_mul_of_pos_right _ h.ecc_pos
  have hecc : rec.eccCodewordsPerBlock ≤ rec.blockOrder.length * rec.eccCodewordsPerBlock :=
    Nat.le_mul_of_pos_left _ h.blocks_pos
  exact ⟨Nat.mod_eq_of_lt (by omega), Nat.mod_eq_of_lt (by omega), Nat.mod_eq_of_lt (by omega),
    Nat.mod_eq_of_lt (by omega)⟩

/-- Settles O26: each value fits its register, and an error leaves the registers as they were. -/
theorem rsencResultRegisters : Obligations.RsencResultRegisters := by
  refine ⟨fun s rec rows data h => ?_, fun s t h herr => ?_⟩
  · obtain ⟨hd, hcw, hn, hr⟩ := h.tables.results_parityWritten
      (eccOfData rec.eccCodewordsPerBlock rows rec.blockOrder data)
    have hsum : s.dataCount + rec.blockOrder.length * rec.eccCodewordsPerBlock = rec.blockOrder.sum := by
      rw [← h.tables.covers, ← totalCodewords_eq h.tables.block_data, totalCodewords]
    exact ⟨_, exec_rsenc_of_ready h, hd, hcw, hcw.trans hsum, hn, hr, rfl, rfl⟩
  · rcases exec_rsenc_next h with ⟨rec, rows, data, -, rfl⟩ | ⟨c, rfl⟩
    · cases herr
    · rfl

/-- Settles O27: RSENC's writes go from D to N of the one record LT(v, l), and an error writes nothing. -/
theorem rsencFrame : Obligations.RsencFrame := by
  intro s t h
  rcases exec_rsenc_next h with ⟨rec, rows, data, hready, rfl⟩ | ⟨c, rfl⟩
  · refine ⟨rfl, rfl, rfl, rfl, rfl, rfl, rfl, rfl, rfl, rfl, rfl, rfl,
      fun _ ha => read_cwm_parityWritten_below s rec _ ha, fun rec' hrec' a ha => ?_, fun hnone => ?_⟩
    · obtain rfl : rec = rec' := Option.some.inj (hready.tables.layout.symm.trans hrec')
      refine Memory.read_writeBytes_of_outside (.inr ?_)
      rwa [eccOfData_length]
    · exact absurd (hready.tables.layout.symm.trans hnone) (Option.some_ne_none rec)
  · exact ⟨rfl, rfl, rfl, rfl, rfl, rfl, rfl, rfl, rfl, rfl, rfl, rfl, fun _ _ => rfl, fun _ _ _ _ => rfl,
      fun _ => rfl⟩

end Sys2Proof.Machine
end

section
/-! SUPPORT. PLACE as a command: its errors in order, its success, the modules it writes and what it keeps
(R170 to R179, R229, R230). -/

namespace Sys2Proof.Machine

theorem exec_place (s : State) : exec .place s = completeCommand s (placeResult s) := exec_engine .place s

/-! Errors. -/

section
variable {s : State}

theorem placeResult_versionRange (h : s.versionOk = false) : placeResult s = .error (.raise .versionRange) := by
  rw [placeResult_eq, if_pos h]

theorem placeResult_malformedTable (hv : s.versionOk = true) (ht : ∀ rec, ¬ PlaceTablesConsistent s rec) :
    placeResult s = .error (.raise .malformedTable) := by
  have hnone : placeTables s.config s.version s.level = none :=
    Option.eq_none_iff_forall_ne_some.mpr fun rec => mt (placeTables_eq_some_iff s rec).mp (ht rec)
  rw [placeResult_eq, if_neg (by simp [hv]), hnone]

end

/-- Settles O33: each error by its own lemma, the version being checked before the table. -/
theorem placeChecksInOrder : Obligations.PlaceChecksInOrder := fun s =>
  ⟨fun hv => exec_engine_of_raise (op := .place) (placeResult_versionRange (State.versionOk_eq_false hv)),
    fun hv ht => exec_engine_of_raise (op := .place) (placeResult_malformedTable (s.versionOk_iff.mpr hv) ht)⟩

/-! Success. -/

/-- The writes of PLACE when the codewords are `cs` (R170, R178). -/
def modulesPlaced (s : State) (rec : LayoutRecord) (cs : List Byte) : State :=
  { s with
    mm := builtMatrix rec (sideOf s.version) cs
    results := { s.results with cwCount := BitVec.ofNat 16 (totalCodewords rec) } }

/-- Ready, PLACE completes with its writes (R170, R205). -/
theorem exec_place_of_ready {s : State} {rec : LayoutRecord} {cs : List Byte} (h : PlaceReady s rec cs) :
    exec .place s = .next (modulesPlaced s rec cs).completeOk := by
  rw [exec_place, placeResult_of_tables ⟨h.version_low, h.version_high⟩ h.tables,
    placeWrites_of_codewords h.codewords, completeCommand_ok, modulesPlaced]

/-- PLACE completes with its writes when it is ready, or with an error and none (R170, R230). -/
theorem exec_place_next {s t : State} (h : exec .place s = .next t) :
    (∃ rec cs, PlaceReady s rec cs ∧ t = (modulesPlaced s rec cs).completeOk) ∨ ∃ c, t = s.errorEntry c := by
  rcases completeCommand_next ((exec_place s).symm.trans h) with ⟨s', hr, -⟩ | ⟨c, -, rfl⟩
  · obtain ⟨rec, cs, hready, -⟩ := placeResult_ok hr
    exact .inl ⟨rec, cs, hready, Host.Outcome.next.inj (h.symm.trans (exec_place_of_ready hready))⟩
  · exact .inr ⟨c, rfl⟩

/-- N fits CWM, whose depth fits 16 bits, so CWCOUNT holds it (R38, R172). -/
theorem PlaceTablesConsistent.cwCount_modulesPlaced {s : State} {rec : LayoutRecord}
    (h : PlaceTablesConsistent s rec) (cs : List Byte) :
    (modulesPlaced s rec cs).results.cwCount.toNat = totalCodewords rec :=
  Nat.mod_eq_of_lt (Nat.lt_succ_of_le (h.fits.trans (nCw_le s.config)))

theorem cellIndex_div {rec : LayoutRecord} {side p : Nat} (h : yCoord rec p < side) :
    cellIndex rec side p / side = xCoord rec p := by
  rw [cellIndex, Nat.mul_comm, Nat.mul_add_div (Nat.zero_lt_of_lt h), Nat.div_eq_of_lt h, Nat.add_zero]

theorem cellIndex_mod {rec : LayoutRecord} {side p : Nat} (h : yCoord rec p < side) :
    cellIndex rec side p % side = yCoord rec p := by
  rw [cellIndex, Nat.mul_comm, Nat.mul_add_mod, Nat.mod_eq_of_lt h]

/-- Inside the grid, positions that share a byte of MM share their module (R39). -/
theorem coords_eq_of_cellIndex_eq {rec : LayoutRecord} {side p q : Nat} (hp : yCoord rec p < side)
    (hq : yCoord rec q < side) (h : cellIndex rec side q = cellIndex rec side p) :
    xCoord rec q = xCoord rec p ∧ yCoord rec q = yCoord rec p :=
  ⟨by rw [← cellIndex_div hq, h, cellIndex_div hp], by rw [← cellIndex_mod hq, h, cellIndex_mod hp]⟩

/-- Settles O30: a later write to the same byte of MM would be one to the same module, since the positions of a
consistent record lie inside the grid. -/
theorem placeWritesModules : Obligations.PlaceWritesModules := by
  intro s rec cs h
  refine ⟨_, exec_place_of_ready h, rfl, rfl, State.irq_completeOk _, h.tables.cwCount_modulesPlaced cs,
    fun p hp1 hp2 hlast => read_builtMatrix_of_last h.codewords.count hp1 hp2 fun q hq1 hq2 hcell => ?_⟩
  obtain ⟨hx, hy⟩ := coords_eq_of_cellIndex_eq (h.tables.inside p hp1 hp2).2 (h.tables.inside q hq1 hq2).2 hcell
  exact hlast q hq1 hq2 hx hy

/-- Settles O31: MM is 0 after the clear, and every later write goes to the module of a position. -/
theorem unplacedModulesAreZero : Obligations.UnplacedModulesAreZero := fun _ _ _ h =>
  ⟨_, exec_place_of_ready h, fun _ ha hne => read_builtMatrix_of_unplaced h.codewords.count ha hne⟩

/-- Settles O32: PLACE's writes are MM and CWCOUNT alone, and an error writes neither. -/
theorem placeFrame : Obligations.PlaceFrame := by
  intro s t h
  rcases exec_place_next h with ⟨rec, cs, -, rfl⟩ | ⟨c, rfl⟩
  · exact ⟨rfl, rfl, rfl, rfl, rfl, rfl, rfl, rfl, rfl, rfl, rfl, fun herr => by cases herr⟩
  · exact ⟨rfl, rfl, rfl, rfl, rfl, rfl, rfl, rfl, rfl, rfl, rfl, fun _ => rfl⟩

end Sys2Proof.Machine
end

section
/-! SUPPORT. The commands of the host's step, and the write to CMD as one rule (R200, R202, R204). -/

namespace Sys2Proof.Machine

/-! NOP. -/

/-- A command of the host's step, accepted and complete at once: with ENG = IDLE only STATUS and IRQ change (R200). -/
theorem State.completeOk_accept {s : State} (hidle : s.eng = .idle) (op : BitVec 4) :
    (s.accept op).completeOk = { s with
      status := { done := true, err := false, werr := s.status.werr, ecode := .none, lastOp := op }
      irq := s.ctl.ie } := by
  obtain ⟨⟩ := s
  cases hidle
  simp [State.completeOk, State.accept, State.settleIrq, State.irqLevel, Status.succeeded, Status.accepted]

theorem exec_nop_idle {s : State} (hidle : s.eng = .idle) :
    exec .nop s = .next (s.accept (opcode .nop)).completeOk :=
  if_neg (by simp [(State.busy_eq_false_iff s).mpr hidle])

theorem exec_nop_busy {s : State} (hb : s.busy = true) : exec .nop s = .next s.dropWrite := if_pos hb

/-- Settles O10: NOP accepted and complete, NOP dropped, and a word with OP = 0 that is not 0 is at least 16. -/
theorem nopCompletes : Obligations.NopCompletes := by
  refine ⟨fun s hidle => ?_, fun s hb => exec_nop_busy hb, rfl, fun w hop hw => decode_of_rsv_set ?_⟩
  · rw [exec_nop_idle hidle, State.completeOk_accept hidle]
    rfl
  · have hne : w.toNat ≠ 0 := fun h => hw (BitVec.eq_of_toNat_eq h)
    rw [rsvClear, decide_eq_false_iff_not]
    omega

/-! SRESET. -/

theorem exec_sreset (s : State) : exec .sreset s = .next s.softReset := rfl

/-- Settles O38: with no command pending nothing is aborted, and the registers are reset. -/
theorem sresetWhenIdle : Obligations.SresetWhenIdle := by
  intro s hidle
  rw [exec_sreset, State.softReset, State.abortPending_idle hidle]
  rfl

/-- Overwritten bytes count as written (R202). -/
theorem isSome_read_anyBytes (d n k : Nat) : (Memory.read (anyBytes d n) k).isSome = decide (k < n) := by
  rw [read_anyBytes]
  split <;> simp [*]

/-- The abort of any command but PLACE overwrites CWM (R202). -/
theorem State.cwm_abortPending_of_writing {s : State} {op : EngineOp} (hop : s.eng = .pending op)
    (hw : op ≠ .place) : s.abortPending.cwm = anyBytes s.draws s.config.nCw := by
  cases op with
  | place => exact absurd rfl hw
  | pack => simp only [State.abortPending, hop]
  | rsenc => simp only [State.abortPending, hop]
  | encode => simp only [State.abortPending, hop]

/-- The abort of PLACE or ENCODE overwrites MM (R202). -/
theorem State.mm_abortPending_of_writing {s : State} {op : EngineOp} (hop : s.eng = .pending op)
    (hw : op = .place ∨ op = .encode) : ∃ d, s.abortPending.mm = anyBytes d mmBytes := by
  rcases hw with rfl | rfl <;> exact ⟨_, by simp only [State.abortPending, hop]; rfl⟩

/-- Settles O39: the abort reaches the memories of the pending command and no other field, the reset the registers. -/
theorem sresetAbortsPending : Obligations.SresetAbortsPending := by
  intro s op hop
  refine ⟨s.softReset, exec_sreset s, rfl, rfl, rfl, rfl, rfl, s.bfm_abortPending, s.config_abortPending,
    s.inputs_abortPending, s.response_abortPending, ?_, fun hw k => ?_, ?_, fun hw k => ?_⟩
  · rintro rfl
    exact State.cwm_abortPending_of_not_writing (.inr hop)
  · show (Memory.read s.abortPending.cwm k).isSome = _
    rw [State.cwm_abortPending_of_writing hop hw, isSome_read_anyBytes]
  · intro hw
    refine State.mm_abortPending_of_not_writing ?_ ?_ <;> rcases hw with rfl | rfl <;> simp [hop]
  · obtain ⟨d, hd⟩ := State.mm_abortPending_of_writing hop hw
    show (Memory.read s.abortPending.mm k).isSome = _
    rw [hd, isSome_read_anyBytes]
    rfl

/-! The write to CMD. -/

/-- SRESET's word resets, BUSY or not, and the port answers (R202, R204). -/
theorem perform_sresetWord {s : State} {w : Word} (hd : decode w = .ok .sreset) :
    ∃ t, exec .sreset s = .next t ∧ perform (cmdWriteEvent w) s = .next { t with response := .written } := by
  refine ⟨s.softReset, exec_sreset s, ?_⟩
  rw [perform_hostCommand hd rfl (.inr rfl), exec_sreset]
  rfl

/-- Any other word is dropped while BUSY = 1 (R78, R204). -/
theorem perform_cmdWriteEvent_dropped {s : State} {w : Word} (hb : s.busy = true) (hw : w ≠ 0x0000000F#32) :
    perform (cmdWriteEvent w) s = .next (s.dropWrite.respond .written) := by
  rw [perform_cmdWriteEvent, cmdWrite_dropped hb hw, onNext_next]

/-- A word that is no command completes as ILLEGAL_CMD while BUSY = 0 (R204, R226). -/
theorem perform_illegalWord {s : State} {w : Word} (hb : s.busy = false) (hw : commandWellFormed w = false) :
    perform (cmdWriteEvent w) s = .next ((s.illegalCommand (opField w)).respond .written) := by
  cases hd : decode w with
  | ok i => exact absurd ((exists_decode_iff w).mp ⟨i, hd⟩) (by simp [hw])
  | error e => simp [perform_cmdWriteEvent, cmdWrite, hb, hd]

/-- An illegal word, accepted and complete at once: with ENG = IDLE only STATUS and IRQ change (R226, R231). -/
theorem State.illegalCommand_eq {s : State} (hidle : s.eng = .idle) (op : BitVec 4) :
    s.illegalCommand op = { s with
      status := { done := true, err := true, werr := s.status.werr, ecode := .illegalCmd, lastOp := op }
      irq := s.ctl.ie } := by
  rw [State.illegalCommand, errorEntry_eq_errorReported]
  obtain ⟨⟩ := s
  cases hidle
  rfl

/-- An accepted engine command is pending, with no report standing and IRQ low (R204). -/
theorem State.start_accept (s : State) (c : BitVec 4) (op : EngineOp) : (s.accept c).start op = { s with
    status := { done := false, err := false, werr := s.status.werr, ecode := .none, lastOp := c }
    eng := .pending op, irq := false } := by
  simp [State.start, State.accept, State.settleIrq, State.irqLevel, Status.accepted]

theorem engineOp_instr (op : EngineOp) : engineOp op.instr = some op := by cases op <;> rfl

/-- Settles O4: while BUSY = 1 a word resets or is dropped; while BUSY = 0 it is a NOP, a reset, illegal, or the word
of an engine command. -/
theorem cmdWriteRule : Obligations.CmdWriteRule := by
  intro s w
  refine ⟨fun _ hw => perform_sresetWord (hw ▸ decode_encode .sreset),
    fun hb hw => perform_cmdWriteEvent_dropped hb hw, fun hb hd => ?_, fun _ hd => perform_sresetWord hd,
    fun hb hw => ?_, fun op hb hd => ?_⟩
  · have hidle := (State.busy_eq_false_iff s).mp hb
    rw [perform_hostCommand hd rfl (.inl hb), exec_nop_idle hidle, onNext_next, State.completeOk_accept hidle,
      ← opField_of_decode hd, State.respond_eq, opField, Bool.and_true]
  · rw [perform_illegalWord hb hw, State.illegalCommand_eq ((State.busy_eq_false_iff s).mp hb), State.respond_eq,
      opField, Bool.and_true]
  · rw [perform_engineCommand hd (engineOp_instr op) hb, State.start_accept, ← opField_of_decode hd,
      State.respond_eq, opField, Bool.and_false]

end Sys2Proof.Machine
end

section
/-! SUPPORT. ENCODE as a command: its errors in order, its three phases, and what it keeps (R201, R229, R230). -/

namespace Sys2Proof.Machine

theorem exec_encode (s : State) : exec .encode s = completeCommand s (encodeResult s) := exec_engine .encode s

/-! Errors. -/

section
variable {s : State} {es : List Entry}

theorem encodeResult_emptyData (h : s.checkedEntries = .ok es) (hzero : totalDataBits es = 0) :
    encodeResult s = .error (.raise .emptyData) := by
  rw [encodeResult_of_entries h, if_pos hzero]

theorem encodeResult_versionRange (h : s.checkedEntries = .ok es) (hpos : 0 < totalDataBits es)
    (hv : s.versionOk = false) : encodeResult s = .error (.raise .versionRange) := by
  rw [encodeResult_of_entries h, if_neg hpos.ne', if_pos hv]

theorem encodeResult_badCapacity (h : s.checkedEntries = .ok es) (hpos : 0 < totalDataBits es)
    (hv : s.versionOk = true) (hcap : s.capacityOk = false) :
    encodeResult s = .error (.raise .badCapacity) := by
  rw [encodeResult_of_entries h, if_neg hpos.ne', if_neg (by simp [hv]), if_pos hcap]

/-- The data do not fit M, so they are not empty (R222, R224). -/
theorem encodeResult_capacityOverflow (h : s.checkedEntries = .ok es) (hv : s.versionOk = true)
    (hcap : s.capacityOk = true) (hover : s.capacity < totalDataBits es) :
    encodeResult s = .error (.raise .capacityOverflow) := by
  rw [encodeResult_of_entries h, if_neg (Nat.ne_zero_of_lt hover), if_neg (by simp [hv]), if_neg (by simp [hcap]),
    if_pos hover]

/-- The tables of one phase are inconsistent (R142, R172). -/
theorem encodeTables_eq_none
    (h : (∀ rec rows, ¬ RsTablesConsistent s rec rows) ∨ (∀ rec, ¬ PlaceTablesConsistent s rec)) :
    encodeTables s = none := by
  refine Option.eq_none_iff_forall_ne_some.mpr fun tables htables => ?_
  obtain ⟨hrs, hplace⟩ := (encodeTables_eq_some_iff s tables.1 tables.2).mp htables
  exact h.elim (fun h => h _ _ hrs) (fun h => h _ hplace)

/-- Every check of PACK and of the version passes, so the tables are the last check (R229). -/
theorem encodeResult_malformedTable (h : PackReady s es) (hv : s.versionOk = true)
    (ht : (∀ rec rows, ¬ RsTablesConsistent s rec rows) ∨ (∀ rec, ¬ PlaceTablesConsistent s rec)) :
    encodeResult s = .error (.raise .malformedTable) := by
  have hcap := (State.capacityOk_iff s).mpr ⟨h.capacity_pos.ne', h.capacity_bytes, h.capacity_fits⟩
  rw [encodeResult_of_entries ((s.checkedEntries_ok_iff es).mpr ⟨h.entries, h.legal⟩), if_neg h.nonempty.ne',
    if_neg (by simp [hv]), if_neg (by simp [hcap]), if_neg h.fits.not_gt, encodeTables_eq_none ht]

end

/-- A check of ENCODE that fails is reported, and nothing else changes (R230, R231). -/
theorem exec_encode_of_raise {s : State} {c : ErrorCode} (h : encodeResult s = .error (.raise c)) :
    exec .encode s = .next (errorReported s c) :=
  exec_engine_of_raise (op := .encode) h

/-- Settles O35: each error by its own lemma, the checks before it passing. -/
theorem encodeChecksInOrder : Obligations.EncodeChecksInOrder := by
  refine ⟨fun s h => exec_encode_of_raise (encodeResult_of_error (State.checkedEntries_tooMany h)),
    fun s es he => ?_⟩
  have hok : AllLegal es → s.checkedEntries = .ok es := fun hl => (s.checkedEntries_ok_iff es).mpr ⟨he, hl⟩
  have hversion := s.versionOk_iff.mpr
  exact ⟨fun hl => exec_encode_of_raise (encodeResult_of_error (State.checkedEntries_illegal he hl)),
    fun hl hzero => exec_encode_of_raise (encodeResult_emptyData (hok hl) hzero),
    fun hl hpos hv => exec_encode_of_raise (encodeResult_versionRange (hok hl) hpos (State.versionOk_eq_false hv)),
    fun hl hpos hv hcap => exec_encode_of_raise
      (encodeResult_badCapacity (hok hl) hpos (hversion hv) (s.capacityOk_eq_false_iff.mpr hcap)),
    fun hl hv hpos hmod hfit hover => exec_encode_of_raise (encodeResult_capacityOverflow (hok hl) (hversion hv)
      (s.capacityOk_iff.mpr ⟨hpos.ne', hmod, hfit⟩) hover),
    fun hready hv ht => exec_encode_of_raise (encodeResult_malformedTable hready (hversion hv) ht)⟩

/-! The three phases. -/

/-- The parity codewords of the packed entries (R147). -/
def parityOf (s : State) (es : List Entry) (rec : LayoutRecord) (rows : List (List Byte)) : List Byte :=
  eccOfData rec.eccCodewordsPerBlock rows rec.blockOrder (dataCodewords es s.capacity)

/-- The writes of PACK and then of RSENC (R201). -/
def encodedCodewords (s : State) (es : List Entry) (rec : LayoutRecord) (rows : List (List Byte)) : State :=
  parityWritten (packWrites s es) rec (parityOf s es rec rows)

/-- The writes of ENCODE: those of PACK, of RSENC and of PLACE (R201). -/
def encodeWritten (s : State) (es : List Entry) (rec : LayoutRecord) (rows : List (List Byte)) : State :=
  modulesPlaced (encodedCodewords s es rec rows) rec (dataCodewords es s.capacity ++ parityOf s es rec rows)

/-- After PACK the data codewords are written (R110). -/
theorem PackReady.holdsCodewords {s : State} {es : List Entry} (h : PackReady s es) :
    HoldsCodewords (packWrites s es) (dataCodewords es s.capacity) (packWrites s es).dataCount :=
  ⟨h.dataCodewords_length, fun _ hk => read_cwm_packWrites hk⟩

/-- After RSENC the parity codewords stand behind the data codewords (R147). -/
theorem HoldsCodewords.append_parity {s : State} {data : List Byte} (h : HoldsCodewords s data s.dataCount)
    (rec : LayoutRecord) (ecc : List Byte) :
    HoldsCodewords (parityWritten s rec ecc) (data ++ ecc) (s.dataCount + ecc.length) := by
  refine ⟨by rw [List.length_append, h.count], fun k hk => ?_⟩
  by_cases hdata : k < data.length
  · rw [read_cwm_parityWritten_below s rec ecc (h.count ▸ hdata), h.written k hdata,
      List.getElem_append_left hdata]
  · obtain ⟨i, rfl⟩ := Nat.exists_eq_add_of_le (Nat.le_of_not_lt hdata)
    have hi : i < ecc.length := by simpa using hk
    rw [List.getElem_append_right (Nat.le_add_right _ _)]
    simp only [Nat.add_sub_cancel_left, h.count]
    exact Memory.read_writeBytes_of_lt hi

/-- N = D + n*r (R142, R148). -/
theorem RsTablesConsistent.totalCodewords_eq {s : State} {rec : LayoutRecord} {rows : List (List Byte)}
    (h : RsTablesConsistent s rec rows) :
    totalCodewords rec = s.dataCount + rec.blockOrder.length * rec.eccCodewordsPerBlock := by
  rw [Machine.totalCodewords_eq h.block_data, h.covers]

section
variable {s : State} {es : List Entry} {rec : LayoutRecord} {rows : List (List Byte)}

/-- When ENCODE is ready, PACK leaves RSENC ready (R201). -/
theorem EncodeReady.rsencReady (h : EncodeReady s es rec rows) :
    RsencReady (packWrites s es) rec rows (dataCodewords es s.capacity) :=
  ⟨h.version_low, h.version_high, h.pack.capacity_pos, h.pack.capacity_bytes, h.pack.capacity_fits,
    h.rs.congr rfl rfl, h.pack.holdsCodewords⟩

/-- When ENCODE is ready, PACK and RSENC leave PLACE ready (R201). -/
theorem EncodeReady.placeReady (h : EncodeReady s es rec rows) : PlaceReady (encodedCodewords s es rec rows) rec
    (dataCodewords es s.capacity ++ parityOf s es rec rows) := by
  refine ⟨h.version_low, h.version_high, h.place.congr rfl rfl, ?_⟩
  have hcodewords := h.pack.holdsCodewords.append_parity rec (parityOf s es rec rows)
  rwa [parityOf, eccOfData_length, ← h.rsencReady.tables.totalCodewords_eq] at hcodewords

/-- ENCODE that is ready meets no further stop: each phase finds its codewords written by the one before (R201). -/
theorem EncodeReady.encodeResult_eq_ok (h : EncodeReady s es rec rows) :
    encodeResult s = .ok (encodeWritten s es rec rows) := by
  have hrsenc : rsencWrites (packWrites s es) rec rows = .ok (encodedCodewords s es rec rows) :=
    rsencWrites_of_ready (h.rsencReady.codewords.count.trans h.rsencReady.tables.covers.symm)
      h.rsencReady.codewords.written
  have hplace : placeWrites (encodedCodewords s es rec rows) rec = .ok (encodeWritten s es rec rows) :=
    placeWrites_of_codewords h.placeReady.codewords
  rw [encodeResult_of_ready h, hrsenc, ok_bind, hplace]

theorem exec_encode_of_ready (h : EncodeReady s es rec rows) :
    exec .encode s = .next (encodeWritten s es rec rows).completeOk := by
  rw [exec_encode, h.encodeResult_eq_ok, completeCommand_ok]

end

/-! A completion between two phases: STATUS, ENG and IRQ play no part in what a command checks and writes. -/

theorem RsencReady.completeOk {s : State} {rec : LayoutRecord} {rows : List (List Byte)} {data : List Byte}
    (h : RsencReady s rec rows data) : RsencReady s.completeOk rec rows data :=
  ⟨h.version_low, h.version_high, h.capacity_pos, h.capacity_bytes, h.capacity_fits, h.tables.congr rfl rfl,
    ⟨h.codewords.count, h.codewords.written⟩⟩

theorem PlaceReady.completeOk {s : State} {rec : LayoutRecord} {cs : List Byte} (h : PlaceReady s rec cs) :
    PlaceReady s.completeOk rec cs :=
  ⟨h.version_low, h.version_high, h.tables.congr rfl rfl, ⟨h.codewords.count, h.codewords.written⟩⟩

theorem parityWritten_completeOk (s : State) (rec : LayoutRecord) (ecc : List Byte) :
    parityWritten s.completeOk rec ecc = (parityWritten s rec ecc).completeOk := rfl

theorem modulesPlaced_completeOk (s : State) (rec : LayoutRecord) (cs : List Byte) :
    modulesPlaced s.completeOk rec cs = (modulesPlaced s rec cs).completeOk := rfl

/-- A command completed twice is completed once (R205). -/
theorem State.completeOk_completeOk (s : State) : s.completeOk.completeOk = s.completeOk := rfl

/-- The result registers of PACK on success (R116). -/
theorem PackReady.results_packWrites {s : State} {es : List Entry} (h : PackReady s es) :
    (packWrites s es).results.totalBits.toNat = totalDataBits es ∧
    (packWrites s es).results.termBits.toNat = terminatorWidth (totalDataBits es) s.capacity := by
  obtain ⟨hsuccess, -⟩ := packResultRegisters
  obtain ⟨t, ht, htotal, hterm, -⟩ := hsuccess s es h
  cases ht.symm.trans (exec_pack_of_ready h)
  exact ⟨htotal, hterm⟩

/-- The result registers of ENCODE are those of the phase that wrote each last (R201). -/
theorem EncodeReady.results_encodeWritten {s : State} {es : List Entry} {rec : LayoutRecord}
    {rows : List (List Byte)} (h : EncodeReady s es rec rows) :
    (encodeWritten s es rec rows).results.totalBits.toNat = totalDataBits es ∧
    (encodeWritten s es rec rows).results.termBits.toNat = terminatorWidth (totalDataBits es) s.capacity ∧
    (encodeWritten s es rec rows).results.dCount.toNat = s.capacity >>> 3 ∧
    (encodeWritten s es rec rows).results.cwCount.toNat = rec.blockOrder.sum ∧
    (encodeWritten s es rec rows).results.nBlocks.toNat = rec.blockOrder.length ∧
    (encodeWritten s es rec rows).results.eccR.toNat = rec.eccCodewordsPerBlock := by
  obtain ⟨htotal, hterm⟩ := h.pack.results_packWrites
  obtain ⟨hd, -, hblocks, hecc⟩ := h.rsencReady.tables.results_parityWritten (parityOf s es rec rows)
  exact ⟨htotal, hterm, hd, h.placeReady.tables.cwCount_modulesPlaced _, hblocks, hecc⟩

/-- Settles O34: each command leaves the next one ready, and its completion commutes with the writes that follow. -/
theorem encodeIsThePipeline : Obligations.EncodeIsThePipeline := by
  intro s es rec rows h
  refine ⟨_, _, (encodeWritten s es rec rows).completeOk, exec_pack_of_ready h.pack,
    exec_rsenc_of_ready h.rsencReady.completeOk, ?_, exec_encode_of_ready h, rfl, h.results_encodeWritten⟩
  rw [parityWritten_completeOk, State.completeOk_completeOk]
  refine (exec_place_of_ready h.placeReady.completeOk).trans ?_
  rw [modulesPlaced_completeOk, State.completeOk_completeOk, encodeWritten]

/-! What ENCODE answers, over every state. -/

/-- With its entries read, ENCODE raises an error or is ready (R201). -/
theorem encodeResult_raises_or_ready {s : State} {es : List Entry} (h : s.checkedEntries = .ok es) :
    (∃ c, encodeResult s = .error (.raise c)) ∨ ∃ rec rows, EncodeReady s es rec rows := by
  rw [encodeResult_of_entries h]
  split_ifs with hzero hv hcap hover
  · exact .inl ⟨_, rfl⟩
  · exact .inl ⟨_, rfl⟩
  · exact .inl ⟨_, rfl⟩
  · exact .inl ⟨_, rfl⟩
  · cases ht : encodeTables s with
    | none => exact .inl ⟨_, rfl⟩
    | some tables =>
      obtain ⟨he, hl⟩ := (s.checkedEntries_ok_iff es).mp h
      obtain ⟨hv1, hv40⟩ := s.versionOk_iff.mp (by simpa using hv)
      obtain ⟨hcap0, hcap8, hfit⟩ := s.capacityOk_iff.mp (by simpa using hcap)
      obtain ⟨hrs, hplace⟩ := (encodeTables_eq_some_iff s tables.1 tables.2).mp ht
      exact .inr ⟨_, _, ⟨he, hl, Nat.pos_of_ne_zero hzero, Nat.pos_of_ne_zero hcap0, hcap8, hfit,
        Nat.le_of_not_lt hover⟩, hv1, hv40, hrs, hplace⟩

/-- Settles O36: with its entries read ENCODE raises an error or is ready, and then it completes. -/
theorem encodeFaultsOnlyOnBitField : Obligations.EncodeFaultsOnlyOnBitField := by
  intro s f h
  have hfault := completeCommand_fault ((exec_encode s).symm.trans h)
  cases hc : s.checkedEntries with
  | error e =>
    cases (encodeResult_of_error hc).symm.trans hfault
    rcases State.checkedEntries_error hc with he | ⟨k, he⟩ <;> cases he
    exact ⟨k, rfl⟩
  | ok es =>
    rcases encodeResult_raises_or_ready hc with ⟨c, hraise⟩ | ⟨rec, rows, hready⟩
    · cases hraise.symm.trans hfault
    · cases hready.encodeResult_eq_ok.symm.trans hfault

/-- ENCODE completes with its writes when it is ready, or with an error and none (R201, R230). -/
theorem exec_encode_next {s t : State} (h : exec .encode s = .next t) :
    (∃ es rec rows, EncodeReady s es rec rows ∧ t = (encodeWritten s es rec rows).completeOk) ∨
      ∃ c, t = s.errorEntry c := by
  rcases completeCommand_next ((exec_encode s).symm.trans h) with ⟨s', hr, -⟩ | ⟨c, -, rfl⟩
  · obtain ⟨es, rec, rows, hready, -⟩ := encodeResult_ok hr
    exact .inl ⟨es, rec, rows, hready, Host.Outcome.next.inj (h.symm.trans (exec_encode_of_ready hready))⟩
  · exact .inr ⟨c, rfl⟩

/-- The writes of PACK and RSENC end at N (R201). -/
theorem EncodeReady.read_cwm_encodeWritten {s : State} {es : List Entry} {rec : LayoutRecord}
    {rows : List (List Byte)} (h : EncodeReady s es rec rows) {a : Nat} (ha : totalCodewords rec ≤ a) :
    Memory.read (encodeWritten s es rec rows).cwm a = Memory.read s.cwm a := by
  rw [h.rs.totalCodewords_eq] at ha
  have hparity : (packWrites s es).dataCount + (parityOf s es rec rows).length ≤ a := by
    rwa [parityOf, eccOfData_length]
  have hdata : 0 + (dataCodewords es s.capacity).length ≤ a := by
    rw [Nat.zero_add, h.pack.dataCodewords_length]
    exact Nat.le_of_add_right_le ha
  calc Memory.read (encodedCodewords s es rec rows).cwm a
    _ = Memory.read (packWrites s es).cwm a := Memory.read_writeBytes_of_outside (.inr hparity)
    _ = Memory.read s.cwm a := Memory.read_writeBytes_of_outside (.inr hdata)

/-- Settles O37: the CWM writes end at N of the one record LT(v, l), and an error writes nothing. -/
theorem encodeFrame : Obligations.EncodeFrame := by
  intro s t h
  rcases exec_encode_next h with ⟨es, rec, rows, hready, rfl⟩ | ⟨c, rfl⟩
  · refine ⟨rfl, rfl, rfl, rfl, rfl, rfl, rfl, rfl, rfl, fun rec' hrec' a ha => ?_, fun herr => by cases herr⟩
    obtain rfl : rec = rec' := Option.some.inj (hready.rs.layout.symm.trans hrec')
    exact hready.read_cwm_encodeWritten ha
  · exact ⟨rfl, rfl, rfl, rfl, rfl, rfl, rfl, rfl, rfl, fun _ _ _ _ => rfl, fun _ => ⟨rfl, rfl, rfl⟩⟩

end Sys2Proof.Machine
end

section
/-! SUPPORT. Error reports: which codes a command can report, what an error leaves alone, and how STATUS reads
(R25, R221, R226, R230, R231). -/

namespace Sys2Proof.Machine

/-! Engine commands. -/

/-- Settles O40: a success has ERR = 0, and an error is `errorReported` with a code that is not 0. -/
theorem errorWritesNothing : Obligations.ErrorWritesNothing := by
  intro op s t h herr
  rcases exec_engine_next h with ⟨s', -, -, rfl⟩ | ⟨c, hr, rfl⟩
  · cases herr
  · exact ⟨c, commandResult_code_ne_none hr, errorEntry_eq_errorReported s c⟩

/-- An engine command reports no error or one of its own codes (R221). -/
theorem ecode_mem_of_exec_engine {op : EngineOp} {s t : State} (h : exec op.instr s = .next t) :
    t.status.ecode ∈ .none :: op.codes := by
  rcases exec_engine_next h with ⟨s', -, -, rfl⟩ | ⟨c, hr, rfl⟩
  · exact List.mem_cons_self
  · exact List.mem_cons_of_mem _ (raisesOnly_commandResult op s c hr)

/-- After an engine command ERR = 1 exactly when a code is reported (R25, R205). -/
theorem err_iff_ecode_of_exec_engine {op : EngineOp} {s t : State} (h : exec op.instr s = .next t) :
    t.status.err = true ↔ t.status.ecode ≠ .none := by
  rcases exec_engine_next h with ⟨s', -, -, rfl⟩ | ⟨c, hr, rfl⟩
  · simp
  · simpa using commandResult_code_ne_none hr

/-- Settles O41: the codes of each command's own checks, and ERR with them. -/
theorem errorCodesByCommand : Obligations.ErrorCodesByCommand :=
  ⟨fun _ _ h => ecode_mem_of_exec_engine (op := .pack) h, fun _ _ h => ecode_mem_of_exec_engine (op := .rsenc) h,
    fun _ _ h => ecode_mem_of_exec_engine (op := .place) h,
    fun _ _ h => ecode_mem_of_exec_engine (op := .encode) h, fun _ _ _ h => err_iff_ecode_of_exec_engine h⟩

/-! The fields of the word STATUS reads as (R25). -/

theorem statusWord_getLsbD_one (s : State) : s.statusWord.getLsbD 1 = s.status.done := by
  have hbusy := s.busy.toNat_lt
  have hdone := s.status.done.toNat_lt
  have hbit : s.statusWord.toNat / 2 % 2 = s.status.done.toNat := by
    rw [statusWord_toNat]
    omega
  rw [BitVec.getLsbD, Nat.testBit_eq_decide_div_mod_eq, Nat.pow_one, hbit]
  cases s.status.done <;> rfl

theorem statusWord_getLsbD_two (s : State) : s.statusWord.getLsbD 2 = s.status.err := by
  have hbusy := s.busy.toNat_lt
  have hdone := s.status.done.toNat_lt
  have herr := s.status.err.toNat_lt
  have hbit : s.statusWord.toNat / 2 ^ 2 % 2 = s.status.err.toNat := by
    rw [statusWord_toNat]
    omega
  rw [BitVec.getLsbD, Nat.testBit_eq_decide_div_mod_eq, hbit]
  cases s.status.err <;> rfl

/-- ECODE stands in bits 11:8 and LASTOP in bits 19:16 (R25). -/
theorem statusWord_extract_fields (s : State) :
    s.statusWord.extractLsb' 8 4 = s.status.ecode.code ∧ s.statusWord.extractLsb' 16 4 = s.status.lastOp := by
  have hbusy := s.busy.toNat_lt
  have hdone := s.status.done.toNat_lt
  have herr := s.status.err.toNat_lt
  have hwerr := s.status.werr.toNat_lt
  have hcode := s.status.ecode.code.isLt
  have hop := s.status.lastOp.isLt
  constructor <;> apply BitVec.eq_of_toNat_eq <;>
    rw [BitVec.extractLsb'_toNat, Nat.shiftRight_eq_div_pow, statusWord_toNat] <;> omega

/-! Illegal words. -/

/-- RSV ≠ 0 makes the word at least 16, and the reserved OPs are 5 to 14 (R92, R93). -/
theorem commandWellFormed_eq_false {w : Word} (h : 16 ≤ w.toNat ∨ (5 ≤ w.toNat % 16 ∧ w.toNat % 16 ≤ 14)) :
    commandWellFormed w = false := by
  simp only [commandWellFormed, rsvClear, opAssigned, Bool.and_eq_false_iff, decide_eq_false_iff_not]
  omega

/-- Settles O5: the write is `State.illegalCommand`, whose report is read off field by field. -/
theorem illegalCommandCompletes : Obligations.IllegalCommandCompletes := by
  intro s w hidle hw
  have hb := (State.busy_eq_false_iff s).mpr hidle
  refine ⟨_, perform_illegalWord hb (commandWellFormed_eq_false hw), ?_⟩
  rw [State.illegalCommand_eq hidle, statusWord_getLsbD_zero, statusWord_getLsbD_one, statusWord_getLsbD_two]
  obtain ⟨hecode, hlastOp⟩ := statusWord_extract_fields (State.respond { s with
    status := { done := true, err := true, werr := s.status.werr, ecode := .illegalCmd, lastOp := opField w }
    irq := s.ctl.ie } .written)
  refine ⟨?_, hb, rfl, rfl, hecode, hlastOp, rfl⟩
  rw [State.respond_eq, Bool.and_true]

end Sys2Proof.Machine
end

section
/-! SUPPORT. WERR: what keeps it and the three events that can clear it (R232, R234). -/

namespace Sys2Proof.Machine

/-- The engine does not touch WERR (R204, R205). -/
theorem werr_of_engineTurn {s t : State} (h : engineTurn s = .next t) : t.status.werr = s.status.werr := by
  rcases engineTurn_cases s with ⟨-, ht⟩ | ⟨op, -, ht⟩
  · cases ht.symm.trans h
    rfl
  · rcases exec_engine_next (ht.symm.trans h) with ⟨s', -, hsame, rfl⟩ | ⟨c, -, rfl⟩
    · show s'.status.werr = s.status.werr
      rw [hsame.status]
    · rfl

/-- A read does not touch STATUS (R71). -/
theorem werr_of_read {s t : State} {addr : BusAddr} {width : Width}
    (h : perform (.access (.read addr width)) s = .next t) : t.status.werr = s.status.werr := by
  obtain ⟨r, d, hread⟩ := perform_read_eq s addr width
  cases hread.symm.trans h
  rfl

section
variable {s t : State} {w : Word}

/-- Written to CMD, every word but SRESET's leaves a set WERR: it is dropped, accepted or illegal (R204). -/
theorem werr_of_cmdWrite (h : cmdWrite w s = .next t) (hw : w ≠ 0x0000000F#32) (hset : s.status.werr = true) :
    t.status.werr = true := by
  by_cases hb : s.busy = true
  · cases (cmdWrite_dropped hb hw).symm.trans h
    rfl
  · have hb : s.busy = false := by simpa using hb
    cases hd : decode w with
    | error e =>
      have hillegal : cmdWrite w s = .next (s.illegalCommand (opField w)) := by simp [cmdWrite, hb, hd]
      cases hillegal.symm.trans h
      exact hset
    | ok i =>
      cases i with
      | nop =>
        have hnop := (cmdWrite_hostCommand hd rfl (.inl hb)).trans (exec_nop_idle ((State.busy_eq_false_iff s).mp hb))
        cases hnop.symm.trans h
        exact hset
      | sreset => exact absurd (eq_encode_of_decode hd) hw
      | _ =>
        cases (cmdWrite_engineCommand hd rfl hb).symm.trans h
        exact hset

/-- Of the writes while BUSY = 0, only the one to STATUS reaches STATUS (R69). -/
theorem State.status_writeTarget (s : State) {tg : Target} (htg : tg ≠ .register (some .status)) (n : Nat)
    (w : Word) : (s.writeTarget tg n w).status = s.status := by
  cases tg with
  | register r => rw [State.writeTarget_register s (fun h => htg (congrArg _ h))]; rfl
  | _ => rfl

/-- STATUS is reached by a word at its offset only (R25, R61). -/
theorem target_eq_status {p : Params} {addr : BusAddr} {width : Width}
    (h : target p addr width = some (.register (some .status))) : addr = 0x00000C ∧ width = .w32 := by
  rcases target_cases h with ⟨r, hr, hw, -, hat⟩ | ⟨i, hi, -⟩ | ⟨k, hk, -⟩ | ⟨k, hk, -⟩
  · cases hr
    exact ⟨BitVec.eq_of_toNat_eq ((registerAt_eq_status_iff _).mp hat.symm), hw⟩
  · cases hi
  · cases hk
  · cases hk

/-- A write while BUSY = 0, not to CMD, clears WERR only as a 1 in bit 3 of STATUS (R25, R232). -/
theorem eq_status_of_werr_writeTarget {tg : Target} {n : Nat} (hset : s.status.werr = true)
    (hclear : (s.writeTarget tg n w).status.werr = false) :
    tg = .register (some .status) ∧ w.getLsbD 3 = true := by
  by_cases htg : tg = .register (some .status)
  · subst htg
    have hbit : (s.status.werr && !w.getLsbD 3) = false := hclear
    exact ⟨rfl, by simpa [hset] using hbit⟩
  · rw [State.status_writeTarget s htg, hset] at hclear
    cases hclear

/-- A host write that clears WERR is SRESET's word to CMD, or a 1 in bit 3 of STATUS while BUSY = 0 (R234). -/
theorem write_of_werr_cleared {addr : BusAddr} {width : Width}
    (h : perform (.access (.write addr width w)) s = .next t) (hset : s.status.werr = true)
    (hclear : t.status.werr = false) :
    Event.access (.write addr width w) = cmdWriteEvent 0x0000000F#32 ∨
      (addr = 0x00000C ∧ width = .w32 ∧ w.getLsbD 3 = true ∧ s.busy = false) := by
  cases htg : target s.config addr width with
  | none =>
    cases (perform_write_busError w htg).symm.trans h
    cases hset.symm.trans hclear
  | some tg =>
    by_cases hcmd : tg = .register (some .cmd)
    · obtain ⟨rfl, rfl⟩ := target_eq_cmd (hcmd ▸ htg)
      obtain ⟨u, hu, rfl⟩ := onNext_eq_next.mp ((perform_cmdWriteEvent w s).symm.trans h)
      by_cases hw : w = 0x0000000F#32
      · exact .inl (by rw [hw, cmdWriteEvent])
      · cases (werr_of_cmdWrite hu hw hset).symm.trans hclear
    · by_cases hb : s.busy = true
      · cases (perform_write_busy hb htg fun h => absurd h hcmd).symm.trans h
        cases hclear
      · have hb : s.busy = false := by simpa using hb
        cases (perform_write ((State.busy_eq_false_iff s).mp hb) htg hcmd).symm.trans h
        obtain ⟨rfl, hbit⟩ := eq_status_of_werr_writeTarget hset hclear
        obtain ⟨haddr, hwidth⟩ := target_eq_status htg
        exact .inr ⟨haddr, hwidth, hbit, hb⟩

end

/-- Settles O44: the step by its event; the engine and a read leave WERR alone. -/
theorem werrIsSticky : Obligations.WerrIsSticky := by
  intro s t h hset hclear
  have hchanged : t.status.werr ≠ s.status.werr := by simp [hset, hclear]
  cases hin : s.inputs with
  | nil => exact absurd (werr_of_engineTurn ((step_of_inputs_nil hin).symm.trans h)) hchanged
  | cons e rest =>
    have hperform := (step_of_inputs hin).symm.trans h
    refine ⟨rest, ?_⟩
    cases e with
    | engine => exact absurd (werr_of_engineTurn hperform) hchanged
    | hardReset => exact .inl rfl
    | access a =>
      cases a with
      | read addr width => exact absurd (werr_of_read hperform) hchanged
      | write addr width w =>
        rcases write_of_werr_cleared hperform hset hclear with hsreset | ⟨rfl, rfl, hbit, hb⟩
        · exact .inr (.inl (by rw [hsreset]))
        · exact .inr (.inr ⟨w, rfl, hbit, hb⟩)

end Sys2Proof.Machine
end

section
/-! SUPPORT. UNINIT_READ: the first byte nothing has written stops the command that reads it, and nothing else stops a
step (R220, R241). -/

namespace Sys2Proof.Machine

theorem exec_engine_of_modelFault {op : EngineOp} {s : State} {f : Fault}
    (h : commandResult op s = .error (.modelFault f)) : exec op.instr s = .fault f := by
  rw [exec_engine, h, completeCommand_modelFault]

/-! An unwritten byte stops the command. -/

/-- An entry is read byte by byte, up to the first byte nothing has written (R241, log 7). -/
theorem readEntry_of_unwritten {bfm : Memory} {i k : Nat} (hlow : 4 * i ≤ k) (hhigh : k < 4 * i + 4)
    (hnone : Memory.read bfm k = none) (hfirst : ∀ j, 4 * i ≤ j → j < k → Memory.read bfm j ≠ none) :
    readEntry bfm i = .error (.modelFault (.uninitRead .bfm k)) := by
  obtain ⟨d, rfl⟩ := Nat.exists_eq_add_of_le hlow
  have hbytes : readBytes .bfm bfm (4 * i) 4 = .error (.modelFault (.uninitRead .bfm (4 * i + d))) :=
    (readBytes_eq_error_iff _ _ _ _ _).mpr
      ⟨d, by omega, rfl, hnone, fun j hj => hfirst _ (Nat.le_add_right _ _) (Nat.add_lt_add_left hj _)⟩
  rw [readEntry_eq, hbytes]
  rfl

/-- The check loop passes the legal entries `es` and stops where the entry behind them does (R110, log 9). -/
theorem checkedEntriesFrom_of_readEntry_error {bfm : Memory} {i n : Nat} {es : List Entry} {e : Stop}
    (hn : es.length < n) (hread : ∀ j (hj : j < es.length), readEntry bfm (i + j) = .ok es[j])
    (hlegal : AllLegal es) (hstop : readEntry bfm (i + es.length) = .error e) :
    checkedEntriesFrom bfm i n = .error e := by
  obtain ⟨m, rfl⟩ := Nat.exists_eq_succ_of_ne_zero (Nat.ne_zero_of_lt hn)
  rw [Nat.succ_eq_add_one, checkedEntriesFrom_succ]
  induction es generalizing i m with
  | nil => rw [show readEntry bfm i = .error e from hstop, error_bind]
  | cons d es ih =>
    obtain ⟨hd, hes⟩ := List.forall_mem_cons.mp hlegal
    have hrest : es.length < m := Nat.lt_of_succ_lt_succ hn
    obtain ⟨m, rfl⟩ := Nat.exists_eq_succ_of_ne_zero (Nat.ne_zero_of_lt hrest)
    have htail : checkedEntriesFrom bfm (i + 1) (m + 1) = .error e := by
      refine ih (fun j hj => ?_) hes ?_ m hrest
      · rw [Nat.add_assoc, Nat.add_comm 1 j]
        exact hread (j + 1) (Nat.succ_lt_succ hj)
      · rwa [Nat.add_assoc, Nat.add_comm 1]
    rw [show readEntry bfm i = .ok d from hread 0 (Nat.succ_pos _), ok_bind, failIf_bind,
      if_neg (by simp [(Entry.legal_iff d).mpr hd]), htail, error_bind]

/-- PACK and ENCODE stop where reading their entries does (R110, R201). -/
theorem exec_of_checkedEntries_modelFault {s : State} {i : Instr} {f : Fault} (hi : i = .pack ∨ i = .encode)
    (h : s.checkedEntries = .error (.modelFault f)) : exec i s = .fault f := by
  rcases hi with rfl | rfl
  · exact exec_engine_of_modelFault (op := .pack) (packResult_of_error h)
  · exact exec_engine_of_modelFault (op := .encode) (encodeResult_of_error h)

/-- Settles O19: the check loop reaches the unwritten entry and stops there, and the command with it. -/
theorem unwrittenEntryFaults : Obligations.UnwrittenEntryFaults := by
  intro s i es k hi hdepth hlen hread hlegal hlow hhigh hnone hfirst
  refine exec_of_checkedEntries_modelFault hi ?_
  rw [State.checkedEntries, failIf_bind, if_neg (by simpa using hdepth)]
  refine checkedEntriesFrom_of_readEntry_error hlen (fun j hj => ?_) hlegal ?_
  · rw [Nat.zero_add]
    exact hread j hj
  · rw [Nat.zero_add]
    exact readEntry_of_unwritten hlow hhigh hnone hfirst

/-- A memory has at most one first unwritten byte. -/
theorem firstUnwritten_unique {m : Memory} {k k' : Nat} (hk : Memory.read m k = none)
    (hfirst : ∀ j, j < k → Memory.read m j ≠ none) (hk' : Memory.read m k' = none)
    (hfirst' : ∀ j, j < k' → Memory.read m j ≠ none) : k' = k :=
  Nat.le_antisymm (Nat.le_of_not_lt fun hlt => hfirst' k hlt hk) (Nat.le_of_not_lt fun hlt => hfirst k' hlt hk')

theorem HoldsCodewords.read_ne_none {s : State} {bs : List Byte} {n k : Nat} (h : HoldsCodewords s bs n)
    (hk : k < n) : Memory.read s.cwm k ≠ none := by
  rw [h.written k (h.count.symm ▸ hk)]
  exact Option.some_ne_none _

/-- RSENC cannot succeed over an unwritten data codeword, so it stops at the first one (R140, R241). -/
theorem rsencResult_of_unwritten {s : State} {rec : LayoutRecord} {rows : List (List Byte)} {k : Nat}
    (hready : rsencResult s = rsencWrites s rec rows) (hk : k < s.dataCount) (hnone : Memory.read s.cwm k = none)
    (hfirst : ∀ j, j < k → Memory.read s.cwm j ≠ none) :
    rsencResult s = .error (.modelFault (.uninitRead .cwm k)) := by
  cases hw : rsencWrites s rec rows with
  | ok s' =>
    obtain ⟨_, _, _, hsuccess, -⟩ := rsencResult_ok (hready.trans hw)
    exact absurd hnone (hsuccess.codewords.read_ne_none hk)
  | error e =>
    obtain ⟨k', -, rfl, hnone', hfirst'⟩ := rsencWrites_error hw
    rw [hready, hw, firstUnwritten_unique hnone hfirst hnone' hfirst']

/-- PLACE cannot succeed over an unwritten codeword, so it stops at the first one (R170, R241). -/
theorem placeWrites_of_unwritten {s : State} {rec : LayoutRecord} {k : Nat} (hk : k < totalCodewords rec)
    (hnone : Memory.read s.cwm k = none) (hfirst : ∀ j, j < k → Memory.read s.cwm j ≠ none) :
    placeWrites s rec = .error (.modelFault (.uninitRead .cwm k)) := by
  cases hw : placeWrites s rec with
  | ok s' =>
    obtain ⟨cs, hcs, -⟩ := placeWrites_ok hw
    exact absurd hnone (hcs.read_ne_none hk)
  | error e =>
    obtain ⟨k', -, rfl, hnone', hfirst'⟩ := placeWrites_error hw
    rw [firstUnwritten_unique hnone hfirst hnone' hfirst']

/-- Settles O29: the checks passing, each command goes on to its codewords and stops at the first unwritten one. -/
theorem unwrittenCodewordFaults : Obligations.UnwrittenCodewordFaults := by
  refine ⟨fun s rec rows k hlow hhigh hpos hmod hfit ht hk hnone hfirst => ?_,
    fun s rec k hlow hhigh ht hk hnone hfirst => ?_⟩
  · exact exec_engine_of_modelFault (op := .rsenc)
      (rsencResult_of_unwritten (rsencResult_of_tables ⟨hlow, hhigh⟩ ⟨hpos.ne', hmod, hfit⟩ ht) hk hnone hfirst)
  · exact exec_engine_of_modelFault (op := .place)
      ((placeResult_of_tables ⟨hlow, hhigh⟩ ht).trans (placeWrites_of_unwritten hk hnone hfirst))

/-! Nothing else stops a step. -/

/-- UNINIT_READ of a byte of BFM or CWM that nothing has written in `s` (R241). -/
def UnwrittenRead (s : State) (f : Fault) : Prop :=
  (∃ k, f = .uninitRead .bfm k ∧ Memory.read s.bfm k = none) ∨
    (∃ k, f = .uninitRead .cwm k ∧ Memory.read s.cwm k = none)

/-- The check loop faults only at a byte of BFM nothing has written (R241). -/
theorem checkedEntriesFrom_modelFault {bfm : Memory} {i n : Nat} {f : Fault}
    (h : checkedEntriesFrom bfm i n = .error (.modelFault f)) :
    ∃ k, f = .uninitRead .bfm k ∧ Memory.read bfm k = none := by
  induction n generalizing i with
  | zero => cases h
  | succ n ih =>
    rw [checkedEntriesFrom_succ] at h
    rcases bind_eq_error.mp h with h | ⟨e, -, h⟩
    · obtain ⟨k, hk, -, -, hnone⟩ := readEntry_error h
      cases hk
      exact ⟨k, rfl, hnone⟩
    · rw [failIf_bind] at h
      split at h
      · cases h
      · rcases bind_eq_error.mp h with h | ⟨es, -, h⟩
        · exact ih h
        · cases h

theorem State.checkedEntries_modelFault {s : State} {f : Fault} (h : s.checkedEntries = .error (.modelFault f)) :
    UnwrittenRead s f := by
  rw [State.checkedEntries, failIf_bind] at h
  split at h
  · cases h
  · exact .inl (checkedEntriesFrom_modelFault h)

theorem rsencResult_modelFault {s : State} {f : Fault} (h : rsencResult s = .error (.modelFault f)) :
    UnwrittenRead s f := by
  rw [rsencResult_eq] at h
  split_ifs at h with hv hcap
  · cases h
  · cases h
  · split at h
    · cases h
    · obtain ⟨k, -, hk, hnone, -⟩ := rsencWrites_error h
      cases hk
      exact .inr ⟨k, rfl, hnone⟩

theorem placeResult_modelFault {s : State} {f : Fault} (h : placeResult s = .error (.modelFault f)) :
    UnwrittenRead s f := by
  rw [placeResult_eq] at h
  split_ifs at h with hv
  · cases h
  · split at h
    · cases h
    · obtain ⟨k, -, hk, hnone, -⟩ := placeWrites_error h
      cases hk
      exact .inr ⟨k, rfl, hnone⟩

/-- ENCODE meets no model fault but an unwritten BitField entry (R201). -/
theorem encodeResult_modelFault {s : State} {f : Fault} (h : encodeResult s = .error (.modelFault f)) :
    s.checkedEntries = .error (.modelFault f) := by
  cases hc : s.checkedEntries with
  | error e =>
    rw [encodeResult_of_error hc] at h
    exact congrArg _ (Except.error.inj h)
  | ok es =>
    rcases encodeResult_raises_or_ready hc with ⟨c, hraise⟩ | ⟨rec, rows, hready⟩
    · cases hraise.symm.trans h
    · cases hready.encodeResult_eq_ok.symm.trans h

/-- An engine command faults only at a byte nothing has written (R205, R241). -/
theorem unwrittenRead_of_exec_engine {op : EngineOp} {s : State} {f : Fault} (h : exec op.instr s = .fault f) :
    UnwrittenRead s f := by
  have hfault : commandResult op s = .error (.modelFault f) :=
    completeCommand_fault ((exec_engine op s).symm.trans h)
  cases op with
  | pack => exact State.checkedEntries_modelFault (packResult_modelFault hfault)
  | rsenc => exact rsencResult_modelFault hfault
  | place => exact placeResult_modelFault hfault
  | encode => exact State.checkedEntries_modelFault (encodeResult_modelFault hfault)

theorem fault_of_engineTurn {s : State} {f : Fault} (h : engineTurn s = .fault f) :
    (∃ op, s.eng = .pending op) ∧ UnwrittenRead s f := by
  rcases engineTurn_cases s with ⟨-, ht⟩ | ⟨op, hop, ht⟩
  · cases ht.symm.trans h
  · exact ⟨⟨op, hop⟩, unwrittenRead_of_exec_engine (ht.symm.trans h)⟩

/-- Settles O60: of the turns only the engine's can fault, and it faults as its command does. -/
theorem onlyUnwrittenReadsStop : Obligations.OnlyUnwrittenReadsStop := by
  refine ⟨step_ne_refused, fun s f h => ?_⟩
  rcases step_cases s with ⟨-, hs⟩ | ⟨rest, -, hs⟩ | ⟨a, rest, -, hs⟩ | ⟨rest, -, hs⟩
  · exact fault_of_engineTurn (hs.symm.trans h)
  · exact fault_of_engineTurn (s := { s with inputs := rest }) (hs.symm.trans h)
  · obtain ⟨t, ht⟩ := hostAccess_total a { s with inputs := rest }
    cases (hs.trans ht).symm.trans h
  · cases hs.symm.trans h

end Sys2Proof.Machine
end

section
/-! SUPPORT. The reset input. -/

namespace Sys2Proof.Machine

/-- Hard reset forgets everything but the parameters, the waiting events and the draw counter (R260, log 10). IRQ comes
out 0 because its level, IE and DONE, is low at their reset values (R46). -/
theorem State.hardReset_eq_reset (s : State) :
    s.hardReset = { State.reset with config := s.config, inputs := s.inputs, draws := s.draws } := rfl

/-- Settles O55: the event is hard reset, whatever the engine was doing, and hard reset gives the reset state. -/
theorem hardResetRule : Obligations.HardResetRule := by
  intro s
  rw [perform_hardReset, State.hardReset_eq_reset]

end Sys2Proof.Machine
end
